-- ==== Sys2Proof/Word.lean ====
section
/-! DEFINITION. Bytes, words and the byte counter as bit vectors (spec/00_scope.md R7, R8, R9; all values are unsigned). -/

namespace Sys2Proof

/-- A byte is 8 bits (R9). -/
abbrev Byte := BitVec 8

/-- An accumulator word, a buffer word and a command-stream word are 32 bits (R7: WW, CMDW). -/
abbrev Word := BitVec 32

/-- The byte counter `COUNT` is exactly 64 bits (R7: CW; spec/10_state.md R24). -/
abbrev Count := BitVec 64

/-- Eight 32-bit words: the accumulator `H[0..7]`, a midstate, a digest (R7: NH). -/
abbrev Words8 := Vector Word 8

end Sys2Proof
end

