-- ==== Sys2Proof/Config.lean ====
section
/-! DEFINITION. What this hardware fixes (spec/00_scope.md R7) and the values the spec leaves open. -/

namespace Sys2Proof.Config

/-- `BLK`: the block size in bytes (R7). -/
abbrev blockBytes : Nat := 64

/-- `NSLOT`: the number of full-state snapshot slots (R7, spec/10_state.md R31; log entry 14). -/
abbrev nslot : Nat := 4

/-- `MAXCOUNT`: the largest value `COUNT` may take (R7, spec/41_init_absorb.md R125). -/
def maxCount : Nat := 2 ^ 61 - 1

/-- The largest number of data bytes one command carries: `LEN` is 24 bits (R7: LENW; spec/30_encoding.md R73). -/
def maxLen : Nat := 2 ^ 24 - 1

/-- `REGBASE`: the base address of the register space, left to the platform and read by no rule
(spec/20_memory.md R59, spec/93_implementation_defined.md U17). -/
opaque regBase : Nat

/-- FREE VALUE: the word the k-th host read of an empty `DIGEST` or `MID` register returns
(spec/10_state.md R35, spec/93_implementation_defined.md U3: "a free draw on each read"; log entry 3). -/
opaque freeWord : Nat → Word

end Sys2Proof.Config
end

