-- ==== Sys2Proof/Syntax.lean ====
section
/-! DEFINITION. The nine commands, one constructor for each row of spec/opcode_table.json (spec/30_encoding.md R78).
A constructor carries the fields of its COMMAND WORD; the in-line words that follow are data and are
never decoded (R71), so the meanings read them from the stream (Machine/Operands.lean). -/

namespace Sys2Proof

/-- A command, as its command word encodes it (R70 to R78). -/
inductive Instr where
  /-- `INIT`, opcode 0x01, format Z (spec/41_init_absorb.md R121). -/
  | init
  /-- `ABSORB`, opcode 0x02, format L: `len` data bytes follow in-line (spec/41_init_absorb.md R124). -/
  | absorb (len : BitVec 24)
  /-- `ABSORBX`, opcode 0x03, format L (spec/42_midstate.md R141). -/
  | absorbx (len : BitVec 24)
  /-- `IMPORTI`, opcode 0x04, format M: a length and eight words follow in-line (spec/42_midstate.md R146). -/
  | importi
  /-- `IMPORTM`, opcode 0x05, format M: a length follows in-line (spec/42_midstate.md R148). -/
  | importm
  /-- `PRIME`, opcode 0x06, format L (spec/42_midstate.md R144). -/
  | prime (len : BitVec 24)
  /-- `FINAL`, opcode 0x07, format Z (spec/43_finalize.md R163). -/
  | final
  /-- `SAVE`, opcode 0x08, format S (spec/44_clone.md R181). -/
  | save (slot : BitVec 8)
  /-- `RESTORE`, opcode 0x09, format S (spec/44_clone.md R182). -/
  | restore (slot : BitVec 8)
  deriving DecidableEq, Repr

end Sys2Proof
end

