-- ==== Sys2Proof/WellFormed.lean ====
section
/-! DEFINITION. Which terms of `Instr` are commands: a slot number must name a slot
(spec/30_encoding.md R74, R77, R79). Every other field is legal at every value of its width. -/

namespace Sys2Proof

/-- The `SLOT` field is "legal when `< NSLOT`" (R77). -/
def slotLegal (slot : BitVec 8) : Bool :=
  decide (slot.toNat < Config.nslot)

/-- An instruction is well formed when some command word encodes it (R79). -/
def Instr.wf : Instr → Bool
  | .init => true
  | .absorb _ => true
  | .absorbx _ => true
  | .importi => true
  | .importm => true
  | .prime _ => true
  | .final => true
  | .save slot => slotLegal slot
  | .restore slot => slotLegal slot

end Sys2Proof
end

