-- ==== Sys2Proof/Decode.lean ====
section
/-! DEFINITION. Command words: the decoder, total on every 32-bit word and rejecting by name
(spec/30_encoding.md R71, R79), the encoder (R72 to R75, R78), the number of in-line words (R76), the opcode
table as the spec prints it (R78), and the words of an opcode-table row as the host numbers its bits. -/

namespace Sys2Proof

/-- Why a word selects no command: the rows of R79. All three raise `IllegalCommand`. -/
inductive Illegal where
  /-- `OP` is 0x00 or 0x0A to 0xFF. -/
  | reservedOpcode
  /-- A reserved field of the command word is not zero. -/
  | reservedField
  /-- `SAVE` or `RESTORE` with `SLOT ≥ NSLOT`. -/
  | noSuchSlot
  deriving DecidableEq, Repr

/-- `OP = w[31:24]` (R70). -/
def opField (w : Word) : BitVec 8 := w.extractLsb' 24 8

/-- `w[23:0]`: `LEN` in format L, reserved in formats Z and M (R72, R73, R75). -/
def lenField (w : Word) : BitVec 24 := w.extractLsb' 0 24

/-- `w[23:8]`: reserved in format S (R74). -/
def slotReserved (w : Word) : BitVec 16 := w.extractLsb' 8 16

/-- `SLOT = w[7:0]` (R74). -/
def slotField (w : Word) : BitVec 8 := w.extractLsb' 0 8

/-- Formats Z and M: "require w[23:0] = 0" (R71). -/
def decodeBare (w : Word) (i : Instr) : Except Illegal Instr :=
  if lenField w = 0 then .ok i else .error .reservedField

/-- Format S: "require w[23:8] = 0 and w[7:0] < NSLOT" (R71). -/
def decodeSlot (w : Word) (i : BitVec 8 → Instr) : Except Illegal Instr :=
  if slotReserved w ≠ 0 then .error .reservedField
  else if slotLegal (slotField w) then .ok (i (slotField w)) else .error .noSuchSlot

/-- Decoding looks at the command word only and is total: every word selects one command or is illegal (R71). -/
def decode (w : Word) : Except Illegal Instr :=
  match (opField w).toNat with
  | 0x01 => decodeBare w .init
  | 0x02 => .ok (.absorb (lenField w))
  | 0x03 => .ok (.absorbx (lenField w))
  | 0x04 => decodeBare w .importi
  | 0x05 => decodeBare w .importm
  | 0x06 => .ok (.prime (lenField w))
  | 0x07 => decodeBare w .final
  | 0x08 => decodeSlot w .save
  | 0x09 => decodeSlot w .restore
  | _ => .error .reservedOpcode

/-- The command word of an instruction, from the bit fields of R72 to R75 and the opcodes of R78. -/
def encode : Instr → Word
  | .init => 0x01#8 ++ 0#24
  | .absorb len => 0x02#8 ++ len
  | .absorbx len => 0x03#8 ++ len
  | .importi => 0x04#8 ++ 0#24
  | .importm => 0x05#8 ++ 0#24
  | .prime len => 0x06#8 ++ len
  | .final => 0x07#8 ++ 0#24
  | .save slot => 0x08#8 ++ 0#16 ++ slot
  | .restore slot => 0x09#8 ++ 0#16 ++ slot

/-- The number of words that carry `len` bytes: `(LEN + 3) div 4` (R73). -/
def dataWords (len : BitVec 24) : Nat := (len.toNat + 3) / 4

/-- `n`, the number of in-line words a command carries (R76). -/
def Instr.inlineWords : Instr → Nat
  | .init => 0
  | .absorb len => dataWords len
  | .absorbx len => dataWords len
  | .importi => 10
  | .importm => 2
  | .prime len => dataWords len
  | .final => 0
  | .save _ => 0
  | .restore _ => 0

/-- One row of the opcode map of R78: a word `w` selects it when `w & mask = match`; for the rows with a
slot field the decoder must also check `SLOT < NSLOT`. -/
structure OpcodeRow where
  mnemonic : String
  pattern : Word
  mask : Word
  hasSlot : Bool
  deriving DecidableEq, Repr

/-- The opcode map as R78 prints it. -/
def opcodeTable : List OpcodeRow :=
  [ ⟨"INIT",    0x01000000, 0xFFFFFFFF, false⟩,
    ⟨"ABSORB",  0x02000000, 0xFF000000, false⟩,
    ⟨"ABSORBX", 0x03000000, 0xFF000000, false⟩,
    ⟨"IMPORTI", 0x04000000, 0xFFFFFFFF, false⟩,
    ⟨"IMPORTM", 0x05000000, 0xFFFFFFFF, false⟩,
    ⟨"PRIME",   0x06000000, 0xFF000000, false⟩,
    ⟨"FINAL",   0x07000000, 0xFFFFFFFF, false⟩,
    ⟨"SAVE",    0x08000000, 0xFFFFFF00, true⟩,
    ⟨"RESTORE", 0x09000000, 0xFFFFFF00, true⟩ ]

/-- `w` selects the row: the mask test, and for a slot row the bound of R71. -/
def OpcodeRow.selects (r : OpcodeRow) (w : Word) : Bool :=
  decide (w &&& r.mask = r.pattern) && (!r.hasSlot || slotLegal (slotField w))

/-- The mnemonic of an instruction, as R78 spells it. -/
def Instr.mnemonic : Instr → String
  | .init => "INIT"
  | .absorb _ => "ABSORB"
  | .absorbx _ => "ABSORBX"
  | .importi => "IMPORTI"
  | .importm => "IMPORTM"
  | .prime _ => "PRIME"
  | .final => "FINAL"
  | .save _ => "SAVE"
  | .restore _ => "RESTORE"

/-- The words of an opcode-table instruction whose bits are `w`, numbered from bit 0 of the FIRST word: as many
words as the instruction has (1 + n of R76, or one where the first word is illegal), at least those the
`nbits` bits fill; every bit above `nbits` is 0. -/
def tableWords (nbits w : Nat) : List Word :=
  let bits := w % 2 ^ nbits
  let n := match decode (BitVec.ofNat 32 bits) with
    | .ok i => i.inlineWords
    | .error _ => 0
  (List.range (max (1 + n) ((nbits + 31) / 32))).map fun j => BitVec.ofNat 32 (bits >>> (32 * j))

/-- The instruction the decoder reads from an opcode-table word. The command word is the first word, and
decoding looks at no other (R71). -/
def decodeTableWord (nbits w : Nat) : Option Instr :=
  match decode (BitVec.ofNat 32 (w % 2 ^ nbits)) with
  | .ok i => some i
  | .error _ => none

end Sys2Proof
end

