-- ==== Sys2Proof/Machine/Bytes.lean ====
section
/-! DEFINITION. Big-endian conversions between bytes and words, the only byte order the engine has
(spec/00_scope.md R10, spec/20_memory.md R54, R56). -/

namespace Sys2Proof.Machine

/-- `be32(b0, b1, b2, b3)`: the first byte is the most significant (R10). -/
def be32 (b0 b1 b2 b3 : Byte) : Word := b0 ++ b1 ++ b2 ++ b3

/-- `bytes32(w)`: `w[31:24]`, `w[23:16]`, `w[15:8]`, `w[7:0]` in that order (R10). -/
def bytes32 (w : Word) : List Byte :=
  [w.extractLsb' 24 8, w.extractLsb' 16 8, w.extractLsb' 8 8, w.extractLsb' 0 8]

/-- `be64bytes(v)`: `v[63:56]`, …, `v[7:0]` in that order (R10). -/
def be64bytes (v : BitVec 64) : List Byte :=
  [v.extractLsb' 56 8, v.extractLsb' 48 8, v.extractLsb' 40 8, v.extractLsb' 32 8,
   v.extractLsb' 24 8, v.extractLsb' 16 8, v.extractLsb' 8 8, v.extractLsb' 0 8]

/-- The bytes of a word sequence, word 0 first, each word most significant byte first (R56). -/
def wordBytes (ws : List Word) : List Byte := ws.flatMap bytes32

/-- Words from bytes, four bytes a word, big-endian (R56, spec/40_compression.md R103; for the stream over a
byte-wide transport R52). Fewer than four bytes at the end are no word yet (DEDUCED; log entry 15). -/
def wordsOfBytes : List Byte → List Word
  | b0 :: b1 :: b2 :: b3 :: rest => be32 b0 b1 b2 b3 :: wordsOfBytes rest
  | _ => []

/-- The in-line words that carry a byte sequence, pad bytes written as zero (R54, spec/30_encoding.md R81). -/
def packData : List Byte → List Word
  | b0 :: b1 :: b2 :: b3 :: rest => be32 b0 b1 b2 b3 :: packData rest
  | [b0, b1, b2] => [be32 b0 b1 b2 0]
  | [b0, b1] => [be32 b0 b1 0 0]
  | [b0] => [be32 b0 0 0 0]
  | [] => []

/-- The eight words of a digest or a midstate as 32 bytes (spec/10_state.md R27, R30, spec/43_finalize.md R164). -/
def serialize (v : Words8) : List Byte := wordBytes v.toList

end Sys2Proof.Machine
end

