-- ==== Sys2Proof/Machine/Sha256.lean ====
section
/-! DEFINITION. The compression step (spec/40_compression.md R100 to R107), the initialization constants
(spec/41_init_absorb.md R120), the padding (spec/43_finalize.md R161, R162) and the digest of a whole message (R166). -/

namespace Sys2Proof.Machine

/-- `ROTR(x, n)` for `0 < n < 32` (spec/00_scope.md R11). -/
def rotr (x : Word) (n : Nat) : Word := (x >>> n) ||| (x <<< (32 - n))

/-- `SHR(x, n)` (spec/00_scope.md R11). -/
def shr (x : Word) (n : Nat) : Word := x >>> n

/-- `Ch` (R101). -/
def ch (x y z : Word) : Word := (x &&& y) ^^^ (~~~x &&& z)

/-- `Maj` (R101). -/
def maj (x y z : Word) : Word := (x &&& y) ^^^ (x &&& z) ^^^ (y &&& z)

/-- `BSIG0` (R101). -/
def bsig0 (x : Word) : Word := rotr x 2 ^^^ rotr x 13 ^^^ rotr x 22

/-- `BSIG1` (R101). -/
def bsig1 (x : Word) : Word := rotr x 6 ^^^ rotr x 11 ^^^ rotr x 25

/-- `SSIG0` (R101). -/
def ssig0 (x : Word) : Word := rotr x 7 ^^^ rotr x 18 ^^^ shr x 3

/-- `SSIG1` (R101). -/
def ssig1 (x : Word) : Word := rotr x 17 ^^^ rotr x 19 ^^^ shr x 10

/-- The 64 round constants `K[0..63]`, one list for each printed line of R102, which has four to a line. -/
def roundConstants : List Word :=
  [0x428a2f98, 0x71374491, 0xb5c0fbcf, 0xe9b5dba5] ++
  [0x3956c25b, 0x59f111f1, 0x923f82a4, 0xab1c5ed5] ++
  [0xd807aa98, 0x12835b01, 0x243185be, 0x550c7dc3] ++
  [0x72be5d74, 0x80deb1fe, 0x9bdc06a7, 0xc19bf174] ++
  [0xe49b69c1, 0xefbe4786, 0x0fc19dc6, 0x240ca1cc] ++
  [0x2de92c6f, 0x4a7484aa, 0x5cb0a9dc, 0x76f988da] ++
  [0x983e5152, 0xa831c66d, 0xb00327c8, 0xbf597fc7] ++
  [0xc6e00bf3, 0xd5a79147, 0x06ca6351, 0x14292967] ++
  [0x27b70a85, 0x2e1b2138, 0x4d2c6dfc, 0x53380d13] ++
  [0x650a7354, 0x766a0abb, 0x81c2c92e, 0x92722c85] ++
  [0xa2bfe8a1, 0xa81a664b, 0xc24b8b70, 0xc76c51a3] ++
  [0xd192e819, 0xd6990624, 0xf40e3585, 0x106aa070] ++
  [0x19a4c116, 0x1e376c08, 0x2748774c, 0x34b0bcb5] ++
  [0x391c0cb3, 0x4ed8aa4a, 0x5b9cca4f, 0x682e6ff3] ++
  [0x748f82ee, 0x78a5636f, 0x84c87814, 0x8cc70208] ++
  [0x90befffa, 0xa4506ceb, 0xbef9a3f7, 0xc67178f2]

/-- The initialization constants `IV[0..7]` (spec/41_init_absorb.md R120). -/
def iv : Words8 :=
  #v[0x6a09e667, 0xbb67ae85, 0x3c6ef372, 0xa54ff53a, 0x510e527f, 0x9b05688c, 0x1f83d9ab, 0x5be0cd19]

/-- The next schedule word `W[t]` after `W[0..t−1]`, for `t ≥ 16` (R104). A `W` shorter than that, which no
block of 64 bytes gives, reads missing words as 0 (log entry 7). -/
def nextScheduleWord (W : List Word) : Word :=
  ssig1 (W.getD (W.length - 2) 0) + W.getD (W.length - 7) 0
    + ssig0 (W.getD (W.length - 15) 0) + W.getD (W.length - 16) 0

/-- `n` more schedule words. -/
def extendSchedule : Nat → List Word → List Word
  | 0, W => W
  | n + 1, W => extendSchedule n (W ++ [nextScheduleWord W])

/-- The message schedule `W[0..63]` of a 64-byte block: its sixteen words (R103), then 48 more (R104). -/
def schedule (blk : List Byte) : List Word := extendSchedule 48 (wordsOfBytes blk)

/-- The eight working variables of the rounds (R105). -/
structure Working where
  a : Word
  b : Word
  c : Word
  d : Word
  e : Word
  f : Word
  g : Word
  h : Word
  deriving DecidableEq, Repr

/-- The working variables start as the input state (R105). -/
def workingOf (h : Words8) : Working := ⟨h[0], h[1], h[2], h[3], h[4], h[5], h[6], h[7]⟩

/-- One round with `K[t]` and `W[t]`, all right-hand sides taken before any assignment (R105). -/
def compressRound (v : Working) (kw : Word × Word) : Working :=
  let t1 := v.h + bsig1 v.e + ch v.e v.f v.g + kw.1 + kw.2
  let t2 := bsig0 v.a + maj v.a v.b v.c
  { a := t1 + t2, b := v.a, c := v.b, d := v.c, e := v.d + t1, f := v.e, g := v.f, h := v.g }

/-- The feed-forward: input state plus working variables, word by word mod 2^32 (R106). -/
def feedForward (h : Words8) (v : Working) : Words8 :=
  #v[h[0] + v.a, h[1] + v.b, h[2] + v.c, h[3] + v.d, h[4] + v.e, h[5] + v.f, h[6] + v.g, h[7] + v.h]

/-- `Compress(h_in, blk)` (R107): the 64 rounds `t = 0, …, 63` in order, then the feed-forward. -/
def compress (h : Words8) (blk : List Byte) : Words8 :=
  feedForward h ((roundConstants.zip (schedule blk)).foldl compressRound (workingOf h))

/-- The first `nb` blocks `S[64·i .. 64·i + 64)` of a byte sequence, in order. -/
def blocks : Nat → List Byte → List (List Byte)
  | 0, _ => []
  | nb + 1, S => S.take Config.blockBytes :: blocks nb (S.drop Config.blockBytes)

/-- `Compress` folded over all the complete blocks of a byte sequence, in order (spec/41_init_absorb.md R122). -/
def compressAll (h : Words8) (S : List Byte) : Words8 :=
  (blocks (S.length / Config.blockBytes) S).foldl compress h

/-- `k = (55 − f) mod 64` with the non-negative residue, `f = cnt mod 64` (R161). -/
def padZeros (cnt : Count) : Nat := (55 + Config.blockBytes - cnt.toNat % Config.blockBytes) % Config.blockBytes

/-- `Pad(cnt)`: `0x80`, `k` zero bytes, then `be64bytes(cnt · 8)` (R161). The product is a natural number; it
fits 64 bits for every `cnt ≤ MAXCOUNT` (R162). -/
def pad (cnt : Count) : List Byte :=
  0x80#8 :: (List.replicate (padZeros cnt) 0x00#8 ++ be64bytes (BitVec.ofNat 64 (cnt.toNat * 8)))

/-- SHA-256 of a message: `IV` folded with `Compress` over the blocks of `m ++ Pad(|m|)` (R166). -/
def sha256 (m : List Byte) : Words8 := compressAll iv (m ++ pad (BitVec.ofNat 64 m.length))

end Sys2Proof.Machine
end

