-- ==== Sys2Proof/Machine/State.lean ====
section
/-! DEFINITION. The engine's architectural state (spec/10_state.md R20 to R31), its value after reset (R39), and the reasons a step
can stop. A register file that may hold `none` is an `Option`: its valid bit is 1 exactly when it holds a value. -/

namespace Sys2Proof.Machine

/-- A Hasher State, "the only entity" of the source: the three fields of R21, R23, R24. Two Hasher States are
equal exactly when these are equal (R41). `FILL` and `ALIGNED` are not state (R25). -/
structure Hasher where
  /-- `H[0..7]`, the accumulator (R21). -/
  h : Words8
  /-- `BUF`, the valid bytes of the block buffer, oldest first (R22, R23). -/
  buf : List Byte
  /-- `COUNT`, the byte counter (R24). -/
  count : Count
  deriving DecidableEq, Repr

/-- The initial Hasher State `(IV, empty, 0)` (spec/41_init_absorb.md R121). -/
def Hasher.initial : Hasher := { h := iv, buf := [], count := 0 }

/-- The engine's own faults (spec/60_exceptions.md R201). Taking one is a NEXT state that records it (R204). -/
inductive EngineFault where
  /-- The word at `pc` selects no command (R207). -/
  | illegalCommand
  /-- An import with `LEN64 mod 64 ≠ 0` (R208). -/
  | unalignedImport
  /-- `COUNT + LEN > MAXCOUNT`, or `LEN64 > MAXCOUNT` (R210). -/
  | lengthOverflow
  /-- `IMPORTM` with `MID_VALID = 0`, or `RESTORE s` with `SV[s] = 0` (R209). -/
  | invalidSource
  deriving DecidableEq, Repr

/-- The states in which the engine has NO STEP. None of them is the engine's own fault; each says that the spec
gives no next state, so stopping is safe (DEDUCED; log entry 4). -/
inductive Fault where
  /-- `FAULT = 1`: the engine is halted until reset. Raised by `step` alone (spec/60_exceptions.md R206). Safe. -/
  | halted
  /-- There is no command word at `pc`: the run has ended (`pc = N`, spec/10_state.md R29). Raised by `step` alone. Safe. -/
  | runEnded
  /-- The command at `pc` needs words beyond the end of the stream: the engine waits for words that never come
  (spec/10_state.md R29, spec/60_exceptions.md R202). Raised by every command's meaning. Safe. -/
  | awaitingWords
  deriving DecidableEq, Repr

/-- What the model refuses by name. -/
inductive Refusal where
  /-- An instruction without a meaning. Raised by no arm of `exec`: all nine commands have one. Safe. -/
  | notModelled (mnemonic : String)
  /-- A host read narrower than 32 bits or at an offset that is no multiple of 4: "outside the spec"
  (spec/20_memory.md R55, spec/93_implementation_defined.md U16). Raised by `hostAccess`, by no step. Safe. -/
  | narrowHostRead
  deriving DecidableEq, Repr

/-- The engine's architectural state, "exactly this list" (R20), with the command stream (spec/20_memory.md
R52; log entry 1) and the model's own draw counter (log entry 3). -/
structure State where
  /-- The live Hasher State `H`, `BUF`, `COUNT` (R21 to R26). -/
  live : Hasher
  /-- `MID[0..7]`; `MID_VALID = 1` exactly when it is not `none` (R27). -/
  mid : Option Words8
  /-- `DIGEST[0..7]`; `DIGEST_VALID = 1` exactly when it is not `none` (R30). -/
  digest : Option Words8
  /-- `SLOT[0..NSLOT−1]`; `SV[s] = 1` exactly when entry `s` is not `none` (R31). -/
  slots : Vector (Option Hasher) Config.nslot
  /-- `FAULT`: the engine is halted (R32, R36). -/
  fault : Bool
  /-- `CAUSE`: the cause code of the fault, 0 while `FAULT = 0` (R33). -/
  cause : BitVec 4
  /-- `FCMD`: the command word of the faulting command (R33). -/
  fcmd : Word
  /-- `FPC`: `pc mod 2^32` of the faulting command (R33). -/
  fpc : Word
  /-- `pc`: the word index of the next command word, a natural number that does not wrap (R28). -/
  pc : Nat
  /-- The command stream `CMD(0), …, CMD(N−1)`, fixed for the run (R38, spec/20_memory.md R52, R64). -/
  stream : List Word
  /-- THE MODEL'S OWN field: how many unspecified words host reads have drawn (R35; log entry 3). -/
  draws : Nat
  deriving DecidableEq, Repr

/-- The machine right after reset (R39, spec/70_reset_and_hazards.md R230), before a stream is presented. -/
def State.reset : State :=
  { live := Hasher.initial
    mid := none
    digest := none
    slots := #v[none, none, none, none]
    fault := false
    cause := 0
    fcmd := 0
    fpc := 0
    pc := 0
    stream := []
    draws := 0 }

end Sys2Proof.Machine
end

