-- ==== Sys2Proof/Machine/Hasher.lean ====
section
/-! DEFINITION. The pure operations on a Hasher State: `Absorb` (spec/41_init_absorb.md R122) and the source's four-step form of it
(R123), the digest of a working copy (spec/43_finalize.md R163), and the counts of `Compress` calls
(spec/70_reset_and_hazards.md R240). -/

namespace Sys2Proof.Machine

/-- `FILL = COUNT mod 64` (spec/10_state.md R25). -/
def Hasher.fill (st : Hasher) : Nat := st.count.toNat % Config.blockBytes

/-- `Absorb(st, D)` (R122): the buffered and the new bytes are one stream `S`; its complete blocks are compressed
in order and the rest is the new buffer. -/
def Hasher.absorb (st : Hasher) (D : List Byte) : Hasher :=
  let S := st.buf ++ D
  { h := compressAll st.h S
    buf := S.drop (Config.blockBytes * (S.length / Config.blockBytes))
    count := BitVec.ofNat 64 (st.count.toNat + D.length) }

/-- Step 1 of the source's procedure (R123): complete the partial block if the input can, and go on with an
empty buffer. The result is the accumulator, the buffered bytes and the rest of the input. -/
def completeBuffered (h : Words8) (buf D : List Byte) : Words8 × List Byte × List Byte :=
  if buf ≠ [] ∧ Config.blockBytes ≤ buf.length + D.length then
    (compress h (buf ++ D.take (Config.blockBytes - buf.length)), [], D.drop (Config.blockBytes - buf.length))
  else (h, buf, D)

/-- Step 2 (R123): "While ≥ 64 bytes of input remain unconsumed, compress each 64-byte chunk directly from the
input". `fuel` bounds the number of chunks. -/
def absorbChunks : Nat → Words8 → List Byte → Words8 × List Byte
  | 0, h, D => (h, D)
  | fuel + 1, h, D =>
    if Config.blockBytes ≤ D.length then
      absorbChunks fuel (compress h (D.take Config.blockBytes)) (D.drop Config.blockBytes)
    else (h, D)

/-- The source's four-step Absorb (R123); step 3 appends the trailing bytes after those already buffered
(spec/90_conflicts.md C6), step 4 counts every byte. -/
def Hasher.absorbFourSteps (st : Hasher) (D : List Byte) : Hasher :=
  let (h₁, buf₁, D₁) := completeBuffered st.h st.buf D
  let (h₂, D₂) := absorbChunks D₁.length h₁ D₁
  { h := h₂, buf := buf₁ ++ D₂, count := BitVec.ofNat 64 (st.count.toNat + D.length) }

/-- The digest `FINAL` computes from the working copy `T = st` (R163): `S = T.BUF ++ Pad(T.COUNT)`, compressed
from `T.H`. -/
def Hasher.finalDigest (st : Hasher) : Words8 := compressAll st.h (st.buf ++ pad st.count)

/-- The Hasher State an import makes: the given words, an empty buffer, the prefix length
(spec/42_midstate.md R146). -/
def Hasher.imported (len : Count) (words : Words8) : Hasher := { h := words, buf := [], count := len }

/-- Sixteen-word view of the block buffer: buffer word `i` of the complete words among the valid bytes
(spec/10_state.md R22). -/
def Hasher.bufWord (st : Hasher) (i : Nat) : Option Word := (wordsOfBytes st.buf)[i]?

end Sys2Proof.Machine
end

