-- ==== Sys2Proof/Machine/Flags.lean ====
section
/-! DEFINITION. The flags and the status register, all computed from the state (spec/10_state.md R25, R32, R34, R36). -/

namespace Sys2Proof.Machine

/-- `ALIGNED` is 1 when `FILL = 0` (R25). -/
def Hasher.aligned (st : Hasher) : Bool := decide (st.fill = 0)

/-- `MID_VALID` (R27, R36). -/
def State.midValid (s : State) : Bool := s.mid.isSome

/-- `DIGEST_VALID` (R30, R36). -/
def State.digestValid (s : State) : Bool := s.digest.isSome

/-- `SV[i]` (R31, R36). -/
def State.slotValid (s : State) (i : Fin Config.nslot) : Bool := s.slots[i].isSome

/-- The `SV` bits, `SV[3]` first and `SV[0]` the least significant (R32: bit 16+s is `SV[s]`). -/
def State.slotValidBits (s : State) : BitVec 4 :=
  BitVec.ofBool (s.slotValid 3) ++ BitVec.ofBool (s.slotValid 2)
    ++ BitVec.ofBool (s.slotValid 1) ++ BitVec.ofBool (s.slotValid 0)

/-- `STATUS`, assembled from the state (R32): reserved 31:20, `SV` 19:16, `CAUSE` 15:12, reserved 11:10, `FILL`
9:4, `ALIGNED` 3, `MID_VALID` 2, `DIGEST_VALID` 1, `FAULT` 0. -/
def State.status (s : State) : Word :=
  0#12 ++ s.slotValidBits ++ s.cause ++ 0#2 ++ BitVec.ofNat 6 s.live.fill
    ++ BitVec.ofBool s.live.aligned ++ BitVec.ofBool s.midValid
    ++ BitVec.ofBool s.digestValid ++ BitVec.ofBool s.fault

/-- `COUNT_HI = COUNT[63:32]` (R34). -/
def State.countHi (s : State) : Word := s.live.count.extractLsb' 32 32

/-- `COUNT_LO = COUNT[31:0]` (R34). -/
def State.countLo (s : State) : Word := s.live.count.extractLsb' 0 32

end Sys2Proof.Machine
end

