-- ==== Sys2Proof/Machine/Operands.lean ====
section
/-! DEFINITION. What a command's in-line words stand for (spec/30_encoding.md R75, R77, spec/20_memory.md R54). -/

namespace Sys2Proof.Machine

/-- The data bytes `D[0..LEN−1]` of a format L command: the bytes of the in-line words, first byte in bits 31:24
of the first word; the pad bytes of the last word are ignored (R54). -/
def inlineData (len : Nat) (ws : List Word) : List Byte := (wordBytes ws).take len

/-- `LEN64 = LEN_HI ‖ LEN_LO` (R75). -/
def len64 (hi lo : Word) : Count := hi ++ lo

/-- The operands of `IMPORTI` from its ten in-line words: `LEN_HI`, `LEN_LO`, `WORD[0]`, …, `WORD[7]` (R75). -/
def importiOperands : List Word → Option (Count × Words8)
  | [hi, lo, w0, w1, w2, w3, w4, w5, w6, w7] => some (len64 hi lo, #v[w0, w1, w2, w3, w4, w5, w6, w7])
  | _ => none

/-- The operand of `IMPORTM` from its two in-line words: `LEN_HI`, `LEN_LO` (R75). -/
def importmOperand : List Word → Option Count
  | [hi, lo] => some (len64 hi lo)
  | _ => none

end Sys2Proof.Machine
end

