-- ==== Sys2Proof/Machine/Ops.lean ====
section
/-! DEFINITION. The named operations the meanings share: reading the command stream, writing one piece of state, completing a
command, taking a fault, and the reset transition, which is the only way out of one. -/

namespace Sys2Proof.Machine

/-- `MemRead(addr, n)`: "the only legal use is `n = 4` with `addr mod 4 = 0`", which returns `CMD(addr div 4)`
(spec/00_scope.md R12, spec/20_memory.md R52). Nothing is there outside the stream. -/
def State.memRead (s : State) (addr n : Nat) : Option Word :=
  if n = 4 ∧ addr % 4 = 0 then s.stream[addr / 4]? else none

/-- The byte at a byte address of the stream: stream byte `4k` is bits 31:24 of word `k`
(spec/20_memory.md R52, R56). -/
def State.streamByte (s : State) (addr : Nat) : Option Byte :=
  s.stream[addr / 4]?.bind fun w => (bytes32 w)[addr % 4]?

/-- The word at `pc`, if the stream has one (spec/20_memory.md R52). -/
def fetch (s : State) : Option Word := s.stream[s.pc]?

/-- Start a command with `n` in-line words: its command word `CMD(pc)` and in-line words `CMD(pc+1)`, …,
`CMD(pc+n)` are given to its pseudocode once all `1 + n` lie inside the stream; until then the engine waits
(spec/20_memory.md R52, spec/60_exceptions.md R202; DEDUCED, log entry 5). -/
def withCommand (n : Nat) (s : State) (run : Word → List Word → Host.Outcome State Fault Refusal) :
    Host.Outcome State Fault Refusal :=
  match s.stream.drop s.pc with
  | [] => .fault .awaitingWords
  | w :: rest => if rest.length < n then .fault .awaitingWords else run w (rest.take n)

/-- A completed command with `n` in-line words sets `pc <- pc + 1 + n` (spec/10_state.md R28). -/
def State.advance (s : State) (n : Nat) : State := { s with pc := s.pc + 1 + n }

/-- Write the live Hasher State. -/
def State.setLive (s : State) (st : Hasher) : State := { s with live := st }

/-- Write `DIGEST` and set `DIGEST_VALID` (spec/43_finalize.md R163). -/
def State.setDigest (s : State) (d : Words8) : State := { s with digest := some d }

/-- Write `SLOT[i]` and set `SV[i]` (spec/44_clone.md R181). -/
def State.setSlot (s : State) (i : Fin Config.nslot) (st : Hasher) : State :=
  { s with slots := s.slots.set i (some st) }

/-- The export of `ABSORBX` and `PRIME`: `MID <- H` when the live state is block-aligned, else `MID <- none`
(spec/42_midstate.md R141). -/
def State.exportMid (s : State) : State :=
  { s with mid := if s.live.aligned then some s.live.h else none }

/-- The cause codes (spec/60_exceptions.md R201). -/
def EngineFault.code : EngineFault → BitVec 4
  | .illegalCommand => 1
  | .unalignedImport => 2
  | .lengthOverflow => 3
  | .invalidSource => 4

/-- `raise <Fault>(w)`: record the fault and nothing else; `pc` stays (spec/60_exceptions.md R204, R205). -/
def State.raise (s : State) (f : EngineFault) (w : Word) : State :=
  { s with fault := true, cause := f.code, fcmd := w, fpc := BitVec.ofNat 32 s.pc }

/-- The reset transition from any state, halted or not, with the stream presented after it: "the stream is taken
anew" (spec/70_reset_and_hazards.md R230). It is the only exit from a fault (spec/60_exceptions.md R206). Only the model's own
draw counter goes on (log entries 3 and 9). -/
def State.resetTo (s : State) (stream : List Word) : State :=
  { State.reset with stream := stream, draws := s.draws }

/-- The slot number of a format S command as an index, `none` where no such slot exists. -/
def slotIndex (slot : BitVec 8) : Option (Fin Config.nslot) :=
  if h : slot.toNat < Config.nslot then some ⟨slot.toNat, h⟩ else none

/-- The first failing check of an import whose source exists: alignment, then range (spec/42_midstate.md R145). -/
def importLengthFault (len : Count) : Option EngineFault :=
  if len.toNat % Config.blockBytes ≠ 0 then some .unalignedImport
  else if Config.maxCount < len.toNat then some .lengthOverflow
  else none

/-- `COUNT + LEN > MAXCOUNT`, the sum a natural number (spec/41_init_absorb.md R125). -/
def Hasher.overflows (st : Hasher) (len : BitVec 24) : Bool :=
  decide (Config.maxCount < st.count.toNat + len.toNat)

/-- The word at `pc` selects no command (spec/60_exceptions.md R207). -/
def raiseIllegal (w : Word) (s : State) : Host.Outcome State Fault Refusal :=
  .next (s.raise .illegalCommand w)

/-- The stream with `words` laid at index `pc`: what stood before and after them is kept; a stream too short
to reach `pc` is filled with zero words. -/
def layAt (stream : List Word) (pc : Nat) (words : List Word) : List Word :=
  (stream ++ List.replicate (pc - stream.length) 0).take pc ++ words ++ stream.drop (pc + words.length)

end Sys2Proof.Machine
end

