-- ==== Sys2Proof/Machine/Clone.lean ====
section
/-! DEFINITION. The commands `SAVE` and `RESTORE` (spec/44_clone.md). A slot number that names no slot never comes from the
decoder; it is `IllegalCommand`, as decode says of it (spec/60_exceptions.md R207; log entry 6). -/

namespace Sys2Proof.Machine

/-- `SAVE s` (R181): a copy of the live state goes to slot `s`. -/
def execSave (slot : BitVec 8) (s : State) : Host.Outcome State Fault Refusal :=
  withCommand 0 s fun w _ =>
    match slotIndex slot with
    | none => .next (s.raise .illegalCommand w)
    | some i => .next ((s.setSlot i s.live).advance 0)

/-- `RESTORE s` (R182): `InvalidSource` when the slot holds none, else the live state becomes the slot's copy. -/
def execRestore (slot : BitVec 8) (s : State) : Host.Outcome State Fault Refusal :=
  withCommand 0 s fun w _ =>
    match slotIndex slot with
    | none => .next (s.raise .illegalCommand w)
    | some i =>
      match s.slots[i] with
      | none => .next (s.raise .invalidSource w)
      | some st => .next ((s.setLive st).advance 0)

end Sys2Proof.Machine
end

