-- ==== Sys2Proof/Machine/Finalize.lean ====
section
/-! DEFINITION. The command `FINAL` (spec/43_finalize.md). -/

namespace Sys2Proof.Machine

/-- `FINAL` (R163): `DIGEST` becomes the digest of a padded working copy; the live state is not written. -/
def execFinal (s : State) : Host.Outcome State Fault Refusal :=
  withCommand 0 s fun _ _ => .next ((s.setDigest s.live.finalDigest).advance 0)

end Sys2Proof.Machine
end

