-- ==== Sys2Proof/Machine/InitAbsorb.lean ====
section
/-! DEFINITION. The commands `INIT` and `ABSORB` (spec/41_init_absorb.md). -/

namespace Sys2Proof.Machine

/-- `INIT` (R121): the live state becomes `(IV, empty, 0)`; nothing else but `pc` changes. -/
def execInit (s : State) : Host.Outcome State Fault Refusal :=
  withCommand 0 s fun _ _ => .next ((s.setLive Hasher.initial).advance 0)

/-- `ABSORB` (R124): the counter bound of R125, then Absorb. -/
def execAbsorb (len : BitVec 24) (s : State) : Host.Outcome State Fault Refusal :=
  withCommand (dataWords len) s fun w ws =>
    if s.live.overflows len then .next (s.raise .lengthOverflow w)
    else .next ((s.setLive (s.live.absorb (inlineData len.toNat ws))).advance (dataWords len))

end Sys2Proof.Machine
end

