-- ==== Sys2Proof/Machine/Midstate.lean ====
section
/-! DEFINITION. The midstate commands `ABSORBX`, `PRIME`, `IMPORTI` and `IMPORTM` (spec/42_midstate.md). -/

namespace Sys2Proof.Machine

/-- `ABSORBX` (R141): absorbs like `ABSORB`, then exports; the test is on the `COUNT` after the absorb. -/
def execAbsorbx (len : BitVec 24) (s : State) : Host.Outcome State Fault Refusal :=
  withCommand (dataWords len) s fun w ws =>
    if s.live.overflows len then .next (s.raise .lengthOverflow w)
    else .next ((s.setLive (s.live.absorb (inlineData len.toNat ws))).exportMid.advance (dataWords len))

/-- `PRIME` (R144): a fresh state absorbs the prefix and is exported; no fault. -/
def execPrime (len : BitVec 24) (s : State) : Host.Outcome State Fault Refusal :=
  withCommand (dataWords len) s fun _ ws =>
    .next ((s.setLive (Hasher.initial.absorb (inlineData len.toNat ws))).exportMid.advance (dataWords len))

/-- `IMPORTI` (R146): the checks of R145, then the live state is `(WORD[0..7], empty, LEN64)`. Ten words always
give the operands, so the first case is never taken (`importiOperands_of_length`). -/
def execImporti (s : State) : Host.Outcome State Fault Refusal :=
  withCommand 10 s fun w ws =>
    match importiOperands ws with
    | none => .fault .awaitingWords
    | some (len, words) =>
      match importLengthFault len with
      | some f => .next (s.raise f w)
      | none => .next ((s.setLive (Hasher.imported len words)).advance 10)

/-- `IMPORTM` (R148): `InvalidSource` first when `MID` holds none, then the checks of R145, then the live state is
`(MID, empty, LEN64)`; `MID` itself is only read. -/
def execImportm (s : State) : Host.Outcome State Fault Refusal :=
  withCommand 2 s fun w ws =>
    match importmOperand ws with
    | none => .fault .awaitingWords
    | some len =>
      match s.mid with
      | none => .next (s.raise .invalidSource w)
      | some words =>
        match importLengthFault len with
        | some f => .next (s.raise f w)
        | none => .next ((s.setLive (Hasher.imported len words)).advance 2)

end Sys2Proof.Machine
end

