-- ==== Sys2Proof/Machine/Dispatch.lean ====
section
/-! DEFINITION. One arm per command (spec/30_encoding.md R78). -/

namespace Sys2Proof.Machine

def exec (i : Instr) (s : State) : Host.Outcome State Fault Refusal :=
  match i with
  | .init => Sys2Proof.Machine.execInit s
  | .absorb len => Sys2Proof.Machine.execAbsorb len s
  | .absorbx len => Sys2Proof.Machine.execAbsorbx len s
  | .importi => Sys2Proof.Machine.execImporti s
  | .importm => Sys2Proof.Machine.execImportm s
  | .prime len => Sys2Proof.Machine.execPrime len s
  | .final => Sys2Proof.Machine.execFinal s
  | .save slot => Sys2Proof.Machine.execSave slot s
  | .restore slot => Sys2Proof.Machine.execRestore slot s

end Sys2Proof.Machine
end

