-- ==== Sys2Proof/Machine/Step.lean ====
section
/-! DEFINITION. One step of the engine, and the word placed where it fetches. -/

namespace Sys2Proof.Machine

/-- One step (spec/60_exceptions.md R202, R206, spec/10_state.md R29): a halted engine has none; at the end of the stream
there is none; an illegal word faults at once; a legal command runs. -/
def step (s : State) : Host.Outcome State Fault Refusal :=
  if s.fault then .fault .halted
  else
    match fetch s with
    | none => .fault .runEnded
    | some w =>
      match decode w with
      | .error _ => raiseIllegal w s
      | .ok i => exec i s

/-- `s` with an opcode-table instruction and its in-line words (zeros above `nbits`) in the stream at `pc`, and not
halted, so that the very next step runs exactly it (log entry 2). -/
def State.withFetchWord (s : State) (nbits w : Nat) : State :=
  { s with
    stream := layAt s.stream s.pc (tableWords nbits w)
    fault := false
    cause := 0
    fcmd := 0
    fpc := 0 }

end Sys2Proof.Machine
end

