-- ==== Sys2Proof/Machine/Assembler.lean ====
section
/-! DEFINITION. The assembler syntax and the pseudo-commands of spec/30_encoding.md R81, R82: from lines of text to stream words. It is
notation of the spec (spec/92_eei_decisions.md D22) and no part of the engine's step. -/

namespace Sys2Proof.Machine

/-- A line of assembly after reading: the nine commands and the pseudo-commands of R82. -/
inductive Asm where
  | init
  | absorb (bytes : List Byte)
  | absorbx (bytes : List Byte)
  | prime (bytes : List Byte)
  | importi (len : Nat) (words : Words8)
  | importm (len : Nat)
  | final
  | save (slot : Nat)
  | restore (slot : Nat)
  | nop
  | exportMid
  | hash (bytes : List Byte)
  | clone (a b : Nat)
  | absorbl (bytes : List Byte)
  deriving DecidableEq, Repr

/-- Why the assembler rejects a line (R81). -/
inductive AsmError where
  /-- The text is not of the syntax of R81. -/
  | malformed
  /-- `<bytes>` longer than `2^24 − 1`. -/
  | tooManyBytes
  /-- `<slot>` not less than `NSLOT`. -/
  | noSuchSlot
  /-- `<len64>` of `2^64` or more. -/
  | lengthTooLarge
  deriving DecidableEq, Repr

/-- A format L command: the command word with `LEN` the number of bytes, then the packed bytes (R81). -/
def asmData (i : BitVec 24 → Instr) (bytes : List Byte) : Except AsmError (List Word) :=
  if bytes.length ≤ Config.maxLen then .ok (encode (i (BitVec.ofNat 24 bytes.length)) :: packData bytes)
  else .error .tooManyBytes

/-- A format S command (R81). -/
def asmSlot (i : BitVec 8 → Instr) (slot : Nat) : Except AsmError (List Word) :=
  if slot < Config.nslot then .ok [encode (i (BitVec.ofNat 8 slot))] else .error .noSuchSlot

/-- A format M command; a length that is no multiple of 64 is not rejected here: "the engine faults at run time" (R81). -/
def asmImport (i : Instr) (len : Nat) (words : List Word) : Except AsmError (List Word) :=
  if len < 2 ^ 64 then
    .ok (encode i :: BitVec.ofNat 32 (len / 2 ^ 32) :: BitVec.ofNat 32 len :: words)
  else .error .lengthTooLarge

/-- `ABSORBL`: "a sequence of `ABSORB` commands, each of at most `2^24 − 1` bytes, in order" (R82). `fuel` bounds
their number. DESIGN CHOICE (log entry 16), safe for the engine: R82 does not say where the bytes are cut; here each `ABSORB` but the last
carries exactly `2^24 − 1` bytes and the last carries the rest. DESIGN CHOICE (log entry 16): R82 gives the pseudo-command for
more than `2^24 − 1` bytes only; here a shorter one is accepted and is one `ABSORB`. -/
def asmAbsorbl : Nat → List Byte → List Word
  | 0, _ => []
  | fuel + 1, bytes =>
    let piece := bytes.take Config.maxLen
    encode (.absorb (BitVec.ofNat 24 piece.length)) :: packData piece ++
      (if bytes.length ≤ Config.maxLen then [] else asmAbsorbl fuel (bytes.drop Config.maxLen))

/-- The words of a line (R81, R82). -/
def assemble : Asm → Except AsmError (List Word)
  | .init => .ok [encode .init]
  | .absorb bytes => asmData .absorb bytes
  | .absorbx bytes => asmData .absorbx bytes
  | .prime bytes => asmData .prime bytes
  | .importi len words => asmImport .importi len words.toList
  | .importm len => asmImport .importm len []
  | .final => .ok [encode .final]
  | .save slot => asmSlot .save slot
  | .restore slot => asmSlot .restore slot
  | .nop => asmData .absorb []
  | .exportMid => asmData .absorbx []
  | .hash bytes => (asmData .absorb bytes).map fun ws => encode .init :: ws ++ [encode .final]
  | .clone a b =>
    match asmSlot .restore a, asmSlot .save b with
    | .ok wa, .ok wb => .ok (wa ++ wb)
    | _, _ => .error .noSuchSlot
  | .absorbl bytes => .ok (asmAbsorbl (bytes.length / Config.maxLen + 1) bytes)

/-! ### Reading a line of text (R81; the lexical details are log entry 11) -/

/-- The tokens of a line. -/
inductive Token where
  | name (cs : List Char)
  | number (n : Nat)
  | ascii (cs : List Char)
  | hex (cs : List Char)
  | comma
  | star
  deriving DecidableEq, Repr

/-- Where the reader stands: between tokens, or inside one (its characters so far, last first). -/
inductive LexState where
  | between
  | inWord (acc : List Char)
  | inAscii (acc : List Char)
  | inHex (acc : List Char)
  deriving DecidableEq, Repr

/-- The value of a hexadecimal digit. -/
def hexDigit (c : Char) : Option Nat :=
  if '0' ≤ c ∧ c ≤ '9' then some (c.toNat - '0'.toNat)
  else if 'a' ≤ c ∧ c ≤ 'f' then some (c.toNat - 'a'.toNat + 10)
  else if 'A' ≤ c ∧ c ≤ 'F' then some (c.toNat - 'A'.toNat + 10)
  else none

/-- A number in a base, most significant digit first. -/
def readDigits (base : Nat) : List Char → Nat → Option Nat
  | [], acc => some acc
  | c :: cs, acc =>
    match hexDigit c with
    | some d => if d < base then readDigits base cs (base * acc + d) else none
    | none => none

/-- A word of letters and digits: a decimal number, a `0x` number, or a name. -/
def readWord : List Char → Option Token
  | '0' :: 'x' :: c :: cs => (readDigits 16 (c :: cs) 0).map .number
  | c :: cs =>
    if c.isDigit then (readDigits 10 (c :: cs) 0).map .number else some (.name (c :: cs))
  | [] => none

/-- The token a character ends, if the reader was in a word. -/
def closeWord : LexState → Option (List Token)
  | .between => some []
  | .inWord acc => (readWord acc.reverse).map ([·])
  | .inAscii _ => none
  | .inHex _ => none

/-- The tokens of a line's characters; `;` starts a comment. -/
def lex : LexState → List Char → Option (List Token)
  | st, [] => closeWord st
  | .inAscii acc, c :: cs =>
    if c = '"' then (lex .between cs).map (.ascii acc.reverse :: ·) else lex (.inAscii (c :: acc)) cs
  | .inHex acc, c :: cs =>
    if c = '"' then (lex .between cs).map (.hex acc.reverse :: ·) else lex (.inHex (c :: acc)) cs
  | .inWord acc, c :: cs =>
    if c.isAlphanum then lex (.inWord (c :: acc)) cs
    else if c = '"' ∧ acc = ['x'] then lex (.inHex []) cs
    else if c = ';' then closeWord (.inWord acc)
    else if c = ',' then do return (← closeWord (.inWord acc)) ++ .comma :: (← lex .between cs)
    else if c = '*' then do return (← closeWord (.inWord acc)) ++ .star :: (← lex .between cs)
    else if c = ' ' ∨ c = '\t' ∨ c = '\r' then do return (← closeWord (.inWord acc)) ++ (← lex .between cs)
    else none
  | .between, c :: cs =>
    if c.isAlphanum then lex (.inWord [c]) cs
    else if c = '"' then lex (.inAscii []) cs
    else if c = ';' then some []
    else if c = ',' then (lex .between cs).map (.comma :: ·)
    else if c = '*' then (lex .between cs).map (.star :: ·)
    else if c = ' ' ∨ c = '\t' ∨ c = '\r' then lex .between cs
    else none

/-- A quoted string: each character is one byte (R81); a character beyond ASCII is rejected. -/
def asciiBytes : List Char → Option (List Byte)
  | [] => some []
  | c :: cs => if c.toNat < 128 then (asciiBytes cs).map (BitVec.ofNat 8 c.toNat :: ·) else none

/-- A hex string: two digits a byte. -/
def hexBytes : List Char → Option (List Byte)
  | [] => some []
  | [_] => none
  | a :: b :: cs => do return BitVec.ofNat 8 (16 * (← hexDigit a) + (← hexDigit b)) :: (← hexBytes cs)

/-- `<bytes>`: one or more items joined by commas (R81). A bare number is one byte, as the spec's own text writes it
(spec/60_exceptions.md R210 "`ABSORB 0x00` (one byte)"; log entry 11). DESIGN CHOICE (log entry 17): a byte of 256 or
more makes the line malformed. -/
def readBytes : List Token → Option (List Byte)
  | [.ascii cs] => asciiBytes cs
  | [.hex cs] => hexBytes cs
  | [.number n, .star, .number b] => if b < 256 then some (List.replicate n (BitVec.ofNat 8 b)) else none
  | [.number b] => if b < 256 then some [BitVec.ofNat 8 b] else none
  | .ascii cs :: .comma :: rest => do return (← asciiBytes cs) ++ (← readBytes rest)
  | .hex cs :: .comma :: rest => do return (← hexBytes cs) ++ (← readBytes rest)
  | .number n :: .star :: .number b :: .comma :: rest =>
    if b < 256 then (readBytes rest).map (List.replicate n (BitVec.ofNat 8 b) ++ ·) else none
  | .number b :: .comma :: rest => if b < 256 then (readBytes rest).map (BitVec.ofNat 8 b :: ·) else none
  | _ => none

/-- Numbers joined by commas. -/
def readNumbers : List Token → Option (List Nat)
  | [.number n] => some [n]
  | .number n :: .comma :: rest => (readNumbers rest).map (n :: ·)
  | _ => none

/-- The operands of `IMPORTI`: a length and eight words of 32 bits (R81). DESIGN CHOICE (log entry 17), safe for the
engine: R81's rejections do not speak of a word operand of `2^32` or more; here it makes the line malformed. -/
def readImporti : List Nat → Option Asm
  | [len, w0, w1, w2, w3, w4, w5, w6, w7] =>
    if [w0, w1, w2, w3, w4, w5, w6, w7].all (· < 2 ^ 32) then
      some (.importi len (#v[w0, w1, w2, w3, w4, w5, w6, w7].map (BitVec.ofNat 32)))
    else none
  | _ => none

/-- A command from its mnemonic and operand tokens (R81, R82). -/
def readCommand (name : List Char) (operands : List Token) : Option Asm :=
  if name = "INIT".toList then if operands = [] then some .init else none
  else if name = "FINAL".toList then if operands = [] then some .final else none
  else if name = "NOP".toList then if operands = [] then some .nop else none
  else if name = "EXPORT".toList then if operands = [] then some .exportMid else none
  else if name = "ABSORB".toList then (readBytes operands).map .absorb
  else if name = "ABSORBX".toList then (readBytes operands).map .absorbx
  else if name = "PRIME".toList then (readBytes operands).map .prime
  else if name = "HASH".toList then (readBytes operands).map .hash
  else if name = "ABSORBL".toList then (readBytes operands).map .absorbl
  else if name = "IMPORTI".toList then (readNumbers operands).bind readImporti
  else if name = "IMPORTM".toList then
    match readNumbers operands with
    | some [len] => some (.importm len)
    | _ => none
  else if name = "SAVE".toList then
    match readNumbers operands with
    | some [slot] => some (.save slot)
    | _ => none
  else if name = "RESTORE".toList then
    match readNumbers operands with
    | some [slot] => some (.restore slot)
    | _ => none
  else if name = "CLONE".toList then
    match readNumbers operands with
    | some [a, b] => some (.clone a b)
    | _ => none
  else none

/-- The words of one line of text: one command, or none on a line that is empty or only a comment (R81). -/
def assembleLine (line : List Char) : Except AsmError (List Word) :=
  match lex .between line with
  | some [] => .ok []
  | some (.name name :: operands) =>
    match readCommand name operands with
    | some a => assemble a
    | none => .error .malformed
  | _ => .error .malformed

/-- The stream of a program, one command per line (R81). -/
def assembleProgram : List (List Char) → Except AsmError (List Word)
  | [] => .ok []
  | line :: lines => do return (← assembleLine line) ++ (← assembleProgram lines)

end Sys2Proof.Machine
end

