-- ==== Sys2Proof/Machine/Work.lean ====
section
/-! DEFINITION. The work a command does, counted in calls of `Compress` (spec/70_reset_and_hazards.md R240, spec/43_finalize.md
R167). It is a count and not a time: the model has no clock (log entry 13). -/

namespace Sys2Proof.Machine

/-- The number of `Compress` calls of a command that runs without a fault in state `s`, the length of the block list
its meaning folds over (`compressAll`); `Obligations.CompressCallCounts` ties it to what `exec` does. -/
def compressCalls (i : Instr) (s : State) : Nat :=
  match i with
  | .init => 0
  | .absorb len => (s.live.buf.length + len.toNat) / Config.blockBytes
  | .absorbx len => (s.live.buf.length + len.toNat) / Config.blockBytes
  | .importi => 0
  | .importm => 0
  | .prime len => len.toNat / Config.blockBytes
  | .final => (s.live.buf ++ pad s.live.count).length / Config.blockBytes
  | .save _ => 0
  | .restore _ => 0

end Sys2Proof.Machine
end

