-- ==== Sys2Proof/Machine/HostPort.lean ====
section
/-! DEFINITION. What the host can do at a command boundary beside reset: read and write the register space
(spec/10_state.md R35, spec/20_memory.md R55). -/

namespace Sys2Proof.Machine

/-- `VERSION`, the constant interface version (spec/10_state.md R35, spec/00_scope.md R1). -/
def version : Word := 0x00000001

/-- The host register map (R35): the word at a byte offset, `none` where the spec leaves the word unspecified
(`DIGEST[i]` or `MID[i]` while the register file holds `none`). An offset with no register reads 0. -/
def hostRegister (offset : Nat) (s : State) : Option Word :=
  match offset with
  | 0x00 => some s.status
  | 0x04 => some s.fcmd
  | 0x08 => some s.fpc
  | 0x0C => some version
  | 0x10 => some s.countHi
  | 0x14 => some s.countLo
  | 0x20 => s.digest.map (·[0])
  | 0x24 => s.digest.map (·[1])
  | 0x28 => s.digest.map (·[2])
  | 0x2C => s.digest.map (·[3])
  | 0x30 => s.digest.map (·[4])
  | 0x34 => s.digest.map (·[5])
  | 0x38 => s.digest.map (·[6])
  | 0x3C => s.digest.map (·[7])
  | 0x40 => s.mid.map (·[0])
  | 0x44 => s.mid.map (·[1])
  | 0x48 => s.mid.map (·[2])
  | 0x4C => s.mid.map (·[3])
  | 0x50 => s.mid.map (·[4])
  | 0x54 => s.mid.map (·[5])
  | 0x58 => s.mid.map (·[6])
  | 0x5C => s.mid.map (·[7])
  | _ => some 0

/-- A host read of one word at a word-aligned offset. It changes nothing of the engine; an unspecified word is a fresh draw of the free
value (R35, spec/93_implementation_defined.md U3; log entry 3). -/
def hostRead (offset : Nat) (s : State) : Word × State :=
  match hostRegister offset s with
  | some w => (w, s)
  | none => (Config.freeWord s.draws, { s with draws := s.draws + 1 })

/-- A host read of `bytes` bytes at any offset: only whole aligned words are inside the spec
(spec/20_memory.md R55, spec/93_implementation_defined.md U16; DEDUCED, log entry 8). -/
def hostAccess (offset bytes : Nat) (s : State) : Host.Outcome (Word × State) Fault Refusal :=
  if bytes = 4 ∧ offset % 4 = 0 then .next (hostRead offset s) else .refused .narrowHostRead

/-- A host write to any offset is ignored (R35, spec/93_implementation_defined.md U14). -/
def hostWrite (_offset : Nat) (_value : Word) (s : State) : State := s

/-- The platform's address of a register: `REGBASE` plus its offset (spec/20_memory.md R59). -/
def registerAddress (offset : Nat) : Nat := Config.regBase + offset

end Sys2Proof.Machine
end

