-- ==== Sys2Proof/Safety.lean ====
section
/-! DEFINITION. What counts as a good state and a good run: the invariants of spec/10_state.md R26 and R33, the predicates "ended", "waiting"
and "halted" of R29 and spec/60_exceptions.md R206, reachability under everything the host and the engine can do, and the vocabulary the
claims use. -/

namespace Sys2Proof.Machine

/-- Invariants 1 and 3 of R26: `|BUF| = FILL`, and `COUNT ≤ MAXCOUNT`. -/
abbrev Hasher.Good (st : Hasher) : Prop :=
  st.buf.length = st.fill ∧ st.count.toNat ≤ Config.maxCount

/-- The live state stands for the byte sequence `m`, absorbed from the initial state (invariant 2 of R26,
spec/41_init_absorb.md R128): `COUNT` is its length, `H` is `IV` folded over its complete blocks, `BUF` is the
rest. -/
def Hasher.Holds (st : Hasher) (m : List Byte) : Prop :=
  st.count.toNat = m.length ∧ st.h = compressAll iv m ∧
    st.buf = m.drop (Config.blockBytes * (m.length / Config.blockBytes))

/-- The invariant of the engine: good Hasher States live and in every slot (R26), the fault registers agree with
each other and with the stream (R33), and `pc` lies inside the stream or at its end (R28, R29). -/
structure State.Inv (s : State) : Prop where
  live : s.live.Good
  slots : ∀ (i : Fin Config.nslot) (st : Hasher), s.slots[i] = some st → st.Good
  noFault : s.fault = false → s.cause = 0 ∧ s.fcmd = 0 ∧ s.fpc = 0
  recorded : s.fault = true →
    (∃ f : EngineFault, s.cause = f.code) ∧ s.fpc = BitVec.ofNat 32 s.pc ∧ s.stream[s.pc]? = some s.fcmd
  pcInStream : s.pc ≤ s.stream.length

/-- The run has ended: `pc = N` and `FAULT = 0` (R29). -/
abbrev State.Ended (s : State) : Prop := s.pc = s.stream.length ∧ s.fault = false

/-- The engine is waiting for in-line words: a legal command word stands at `pc`, and not all its in-line words lie
inside the stream (R29, spec/60_exceptions.md R202). -/
def State.Waiting (s : State) : Prop :=
  s.fault = false ∧ ∃ w i, s.stream[s.pc]? = some w ∧ decode w = .ok i ∧ s.stream.length ≤ s.pc + i.inlineWords

/-- No step is possible and the run has not ended (spec/60_exceptions.md R206: a halted state is stuck, not final). -/
def State.Stuck (s : State) : Prop := (∀ t, step s ≠ .next t) ∧ ¬ s.Ended

/-- `w` is the word at `pc` and `ws` are in-line words after it, all inside the stream
(spec/20_memory.md R52). -/
def State.CommandAt (s : State) (w : Word) (ws : List Word) : Prop :=
  ∃ rest, s.stream.drop s.pc = w :: (ws ++ rest)

/-- Every state the engine can come to: reset with any stream (whatever the draw counter), a step, a host read of
any register, a host write. The host never changes the stream during a run (log entry 10). -/
inductive Reachable : State → Prop where
  | reset (draws : Nat) (stream : List Word) : Reachable { State.reset with stream := stream, draws := draws }
  | reset_again (s : State) (stream : List Word) : Reachable s → Reachable (s.resetTo stream)
  | step (s t : State) : Reachable s → step s = .next t → Reachable t
  | hostRead (s : State) (offset : Nat) : Reachable s → Reachable (hostRead offset s).2
  | hostWrite (s : State) (offset : Nat) (value : Word) : Reachable s → Reachable (hostWrite offset value s)

/-- `t` comes from `s` by any number of steps, each of a command that `allowed` admits (or of an illegal word). -/
inductive RunsTo (allowed : Instr → Prop) : State → State → Prop where
  | refl (s : State) : RunsTo allowed s s
  | step (s t u : State) : step s = .next t → (∀ w i, fetch s = some w → decode w = .ok i → allowed i) →
      RunsTo allowed t u → RunsTo allowed s u

end Sys2Proof.Machine
end

