-- ==== Sys2Proof/Certificates/Slice0/Obligations.lean ====
section
/-! DEFINITION. The statements about the model, for the provers. Each cites the rule of spec/ it formalises. -/

open Sys2Proof Sys2Proof.Machine

/-! ### Bytes and encodings -/

/-- spec/00_scope.md R10: `be32`, `bytes32` and `be64bytes` as numbers, and that the first two are inverse. -/
def Obligations.BigEndianConversions : Prop :=
  (∀ b0 b1 b2 b3 : Byte, (be32 b0 b1 b2 b3).toNat
      = b0.toNat * 2 ^ 24 + b1.toNat * 2 ^ 16 + b2.toNat * 2 ^ 8 + b3.toNat) ∧
  (∀ b0 b1 b2 b3 : Byte, bytes32 (be32 b0 b1 b2 b3) = [b0, b1, b2, b3]) ∧
  (∀ w : Word, ∃ b0 b1 b2 b3, bytes32 w = [b0, b1, b2, b3] ∧ be32 b0 b1 b2 b3 = w) ∧
  (∀ v : BitVec 64, (be64bytes v).map BitVec.toNat
      = [56, 48, 40, 32, 24, 16, 8, 0].map fun k => v.toNat / 2 ^ k % 2 ^ 8)

/-- spec/20_memory.md R54: the placement of in-line data bytes, the number of words that carry them, that pad bytes
do not matter, and that the assembler writes them as zero. -/
def Obligations.InlineDataPlacement : Prop :=
  (∀ (len : BitVec 24) (ws : List Word), ws.length = dataWords len →
    (inlineData len.toNat ws).length = len.toNat ∧
    ∀ j w, j < len.toNat → ws[j / 4]? = some w →
      (inlineData len.toNat ws)[j]? = some (w.extractLsb' (24 - 8 * (j % 4)) 8)) ∧
  (∀ len : BitVec 24, len.toNat ≤ 4 * dataWords len ∧ 4 * dataWords len < len.toNat + 4) ∧
  (∀ D : List Byte, ∃ k, k < 4 ∧ wordBytes (packData D) = D ++ List.replicate k 0)

/-- spec/10_state.md R30, spec/43_finalize.md R164: digest byte `j` is `DIGEST[j div 4][31 − 8·(j mod 4) : 24 − 8·(j mod 4)]`;
the same layout serves the midstate (spec/10_state.md R27). -/
def Obligations.SerializedWordBytes : Prop :=
  ∀ v : Words8, (serialize v).length = 32 ∧
    ∀ (i : Fin 8) (k : Fin 4), (serialize v)[4 * i.val + k.val]? = some ((v[i]).extractLsb' (24 - 8 * k.val) 8)

/-- Sanity: words written out from spec/30_encoding.md's formats (its worked encodings R83, and illegal words of
R79) decode to what they stand for. -/
def Obligations.DecodeOfWrittenWords : Prop :=
  decode 0x01000000 = .ok .init ∧ decode 0x07000000 = .ok .final ∧
  decode 0x02000003 = .ok (.absorb 3) ∧ decode 0x03000040 = .ok (.absorbx 64) ∧
  decode 0x06000000 = .ok (.prime 0) ∧ decode 0x08000002 = .ok (.save 2) ∧
  decode 0x09000000 = .ok (.restore 0) ∧ decode 0x05000000 = .ok .importm ∧
  decode 0x04000000 = .ok .importi ∧ decode 0x00000000 = .error .reservedOpcode ∧
  decode 0x08000004 = .error .noSuchSlot ∧ decode 0x01000001 = .error .reservedField

/-- spec/30_encoding.md R71: decoding, on the word as a number: `OP` is its quotient by 2^24, the other fields its
remainders. -/
def Obligations.DecodeFollowsFormats : Prop :=
  ∀ w : Word,
    let op := w.toNat / 2 ^ 24
    let low := w.toNat % 2 ^ 24
    let bare (i : Instr) : Except Illegal Instr := if low = 0 then .ok i else .error .reservedField
    let slot (i : BitVec 8 → Instr) : Except Illegal Instr :=
      if low / 2 ^ 8 ≠ 0 then .error .reservedField
      else if low < 4 then .ok (i (BitVec.ofNat 8 low)) else .error .noSuchSlot
    (op = 1 → decode w = bare .init) ∧ (op = 7 → decode w = bare .final) ∧
    (op = 2 → decode w = .ok (.absorb (BitVec.ofNat 24 low))) ∧
    (op = 3 → decode w = .ok (.absorbx (BitVec.ofNat 24 low))) ∧
    (op = 6 → decode w = .ok (.prime (BitVec.ofNat 24 low))) ∧
    (op = 8 → decode w = slot .save) ∧ (op = 9 → decode w = slot .restore) ∧
    (op = 4 → decode w = bare .importi) ∧ (op = 5 → decode w = bare .importm) ∧
    (op = 0 ∨ 10 ≤ op → decode w = .error .reservedOpcode)

/-- spec/30_encoding.md R78: a word selects a command exactly when it selects that command's row of the opcode map
(mask test, and `SLOT < NSLOT` for the slot rows), and it selects at most one row. -/
def Obligations.DecodeAgreesWithOpcodeTable : Prop :=
  (∀ (w : Word) (i : Instr), decode w = .ok i →
    ∃ r ∈ opcodeTable, r.selects w = true ∧ r.mnemonic = i.mnemonic) ∧
  (∀ (w : Word) (r : OpcodeRow), r ∈ opcodeTable → r.selects w = true →
    ∃ i, decode w = .ok i ∧ i.mnemonic = r.mnemonic) ∧
  (∀ (w : Word) (r q : OpcodeRow), r ∈ opcodeTable → q ∈ opcodeTable →
    r.selects w = true → q.selects w = true → r = q)

/-- Headline: decoding the command word of a well-formed instruction gives it back, at every value of every
operand (formats of spec/30_encoding.md R72 to R75). -/
def Obligations.DecodeOfEncode : Prop :=
  ∀ i : Instr, i.wf = true → decode (encode i) = .ok i

/-- A word that decodes is the encoding of what it decodes to, so no bit of a command word is dropped and
every legal word has one meaning (spec/30_encoding.md R71, R79). -/
def Obligations.EncodeOfDecode : Prop :=
  ∀ (w : Word) (i : Instr), decode w = .ok i → i.wf = true ∧ encode i = w

/-- spec/30_encoding.md R81: an absorbing command as the assembler writes it decodes to that command, carries `n` of R76
words, and delivers exactly the bytes it was given. -/
def Obligations.AssembledDataIsDelivered : Prop :=
  ∀ (bytes : List Byte), bytes.length ≤ 2 ^ 24 - 1 →
    ∀ p ∈ [(Asm.absorb bytes, Instr.absorb (BitVec.ofNat 24 bytes.length)),
           (Asm.absorbx bytes, Instr.absorbx (BitVec.ofNat 24 bytes.length)),
           (Asm.prime bytes, Instr.prime (BitVec.ofNat 24 bytes.length))],
      ∃ w ws, assemble p.1 = .ok (w :: ws) ∧ decode w = .ok p.2 ∧ ws.length = p.2.inlineWords ∧
        inlineData bytes.length ws = bytes

/-! ### The compression step and the padding -/

/-- spec/40_compression.md R102: `K[t] = floor(cbrt(p) · 2^32) mod 2^32` for the `(t+1)`-th prime `p`. -/
def Obligations.RoundConstantsAreCubeRoots : Prop :=
  ∃ primes : List Nat, primes.length = 64 ∧ primes.Pairwise (· < ·) ∧
    (∀ p, p ∈ primes ↔ p.Prime ∧ p ≤ 311) ∧
    ∀ (t : Fin 64) (p : Nat), primes[t.val]? = some p →
      ∃ r, r ^ 3 ≤ p * 2 ^ 96 ∧ p * 2 ^ 96 < (r + 1) ^ 3 ∧ roundConstants[t.val]? = some (BitVec.ofNat 32 r)

/-- spec/41_init_absorb.md R120: `IV[i]` is `floor(sqrt(p) · 2^32) mod 2^32` for the `(i+1)`-th prime `p`, and the
eight values are those printed. -/
def Obligations.InitializationConstantsAreSquareRoots : Prop :=
  iv = #v[0x6a09e667, 0xbb67ae85, 0x3c6ef372, 0xa54ff53a, 0x510e527f, 0x9b05688c, 0x1f83d9ab, 0x5be0cd19] ∧
  ∀ p ∈ [2, 3, 5, 7, 11, 13, 17, 19].zip iv.toList,
    ∃ r, r ^ 2 ≤ p.1 * 2 ^ 64 ∧ p.1 * 2 ^ 64 < (r + 1) ^ 2 ∧ p.2 = BitVec.ofNat 32 r

/-- spec/40_compression.md R103, R104: the schedule of a 64-byte block has 64 words; the first sixteen are the
big-endian block words, each later one follows the recurrence. -/
def Obligations.ScheduleRecurrence : Prop :=
  ∀ blk : List Byte, blk.length = 64 →
    (schedule blk).length = 64 ∧
    (∀ i b0 b1 b2 b3, i < 16 → blk[4 * i]? = some b0 → blk[4 * i + 1]? = some b1 → blk[4 * i + 2]? = some b2 →
      blk[4 * i + 3]? = some b3 → (schedule blk)[i]? = some (be32 b0 b1 b2 b3)) ∧
    (∀ t w2 w7 w15 w16, 16 ≤ t → t < 64 → (schedule blk)[t - 2]? = some w2 → (schedule blk)[t - 7]? = some w7 →
      (schedule blk)[t - 15]? = some w15 → (schedule blk)[t - 16]? = some w16 →
      (schedule blk)[t]? = some (ssig1 w2 + w7 + ssig0 w15 + w16))

/-- spec/40_compression.md R105, R106, R107: on a 64-byte block `Compress` runs exactly 64 rounds in order from the input
state, each with its own `K[t]` and `W[t]`, and adds the input state at the end. -/
def Obligations.CompressRunsTheRounds : Prop :=
  ∀ (h : Words8) (blk : List Byte), blk.length = 64 →
    ∃ v : Nat → Working,
      v 0 = ⟨h[0], h[1], h[2], h[3], h[4], h[5], h[6], h[7]⟩ ∧
      (∀ t K W, t < 64 → roundConstants[t]? = some K → (schedule blk)[t]? = some W →
        let x := v t
        let T1 := x.h + bsig1 x.e + ch x.e x.f x.g + K + W
        let T2 := bsig0 x.a + maj x.a x.b x.c
        v (t + 1) = ⟨T1 + T2, x.a, x.b, x.c, x.d + T1, x.e, x.f, x.g⟩) ∧
      compress h blk = #v[h[0] + (v 64).a, h[1] + (v 64).b, h[2] + (v 64).c, h[3] + (v 64).d,
        h[4] + (v 64).e, h[5] + (v 64).f, h[6] + (v 64).g, h[7] + (v 64).h]

/-- spec/43_finalize.md R161, R162: the padding of every legal counter: `0x80`, then the least number of zero bytes that
brings the fill to 56 mod 64, then the bit count in eight bytes without loss; one or two blocks in all. -/
def Obligations.PaddingLayout : Prop :=
  ∀ cnt : Count, cnt.toNat ≤ 2 ^ 61 - 1 →
    let f := cnt.toNat % 64
    ∃ (k : Nat) (field : BitVec 64),
      pad cnt = [0x80] ++ List.replicate k 0x00 ++ be64bytes field ∧
      field.toNat = cnt.toNat * 8 ∧
      (f + 1 + k) % 64 = 56 ∧ (∀ j, (f + 1 + j) % 64 = 56 → k ≤ j) ∧
      (f ≤ 55 → f + (pad cnt).length = 64) ∧ (56 ≤ f → f + (pad cnt).length = 128)

/-! ### Absorb and digest -/

/-- spec/41_init_absorb.md R122: the result of Absorb on a good state is the definition's, with its own length
invariant and an exact counter. -/
def Obligations.AbsorbKeepsLengthInvariant : Prop :=
  ∀ (st : Hasher) (D : List Byte), st.buf.length = st.count.toNat % 64 → st.count.toNat + D.length ≤ 2 ^ 61 - 1 →
    (st.absorb D).buf.length = (st.absorb D).count.toNat % 64 ∧
    (st.absorb D).count.toNat = st.count.toNat + D.length ∧
    (∃ whole, st.buf ++ D = whole ++ (st.absorb D).buf ∧ whole.length = 64 * ((st.buf ++ D).length / 64) ∧
      (st.absorb D).h = compressAll st.h whole)

/-- spec/41_init_absorb.md R127: absorbing `A` then `B` gives the state of absorbing `A ++ B`. -/
def Obligations.AbsorbSplitsAnywhere : Prop :=
  ∀ (st : Hasher) (A B : List Byte), st.buf.length = st.count.toNat % 64 →
    st.count.toNat + A.length + B.length ≤ 2 ^ 61 - 1 →
    (st.absorb A).absorb B = st.absorb (A ++ B)

/-- spec/41_init_absorb.md R123: the source's four-step procedure computes the same function as R122. -/
def Obligations.FourStepAbsorbIsAbsorb : Prop :=
  ∀ (st : Hasher) (D : List Byte), st.buf.length = st.count.toNat % 64 → st.count.toNat + D.length ≤ 2 ^ 61 - 1 →
    st.absorbFourSteps D = st.absorb D

/-- spec/41_init_absorb.md R128: the initial state stands for the empty message, and absorbing `D` into a state that
stands for `m` gives one that stands for `m ++ D`. -/
def Obligations.AbsorbExtendsTheMessage : Prop :=
  Hasher.initial.Holds [] ∧
  ∀ (st : Hasher) (m D : List Byte), st.Holds m → m.length + D.length ≤ 2 ^ 61 - 1 → (st.absorb D).Holds (m ++ D)

/-- spec/43_finalize.md R166: `FINAL` on a live state that stands for `m` completes and leaves SHA-256 of `m` in
`DIGEST`; and after an import of words `h` with length `L` and absorbing `S`, the digest computed is `h` folded
over `S ++ Pad(L + |S|)`. -/
def Obligations.FinalGivesSha256 : Prop :=
  (∀ (s : State) (w : Word) (m : List Byte), s.CommandAt w [] → s.live.Holds m → m.length ≤ 2 ^ 61 - 1 →
    ∃ t, exec .final s = .next t ∧ t.digest = some (sha256 m)) ∧
  (∀ (h : Words8) (L : Count) (S : List Byte), L.toNat % 64 = 0 → L.toNat + S.length ≤ 2 ^ 61 - 1 →
    ((Hasher.imported L h).absorb S).finalDigest
      = compressAll h (S ++ pad (BitVec.ofNat 64 (L.toNat + S.length))))

/-- spec/42_midstate.md R147: for every prefix `P` of whole blocks, `IMPORTI |P|, h` with the accumulator `h` that absorbing `P`
from the initial state gives makes the very live state of having absorbed `P`; so for every suffix `S` the digest is
that of `P ++ S`, which is its SHA-256. -/
def Obligations.ImportEqualsAbsorbedPrefix : Prop :=
  ∀ (s : State) (w : Word) (ws : List Word) (P : List Byte) (L : Count) (h : Words8),
    P.length % 64 = 0 → P.length ≤ 2 ^ 61 - 1 → h = (Hasher.initial.absorb P).h → L = BitVec.ofNat 64 P.length →
    s.CommandAt w ws → importiOperands ws = some (L, h) →
    ∃ t, exec .importi s = .next t ∧ t.live = Hasher.initial.absorb P ∧
      ∀ S : List Byte, P.length + S.length ≤ 2 ^ 61 - 1 →
        (t.live.absorb S).finalDigest = (Hasher.initial.absorb (P ++ S)).finalDigest ∧
        (t.live.absorb S).finalDigest = sha256 (P ++ S)

/-- spec/43_finalize.md R165: after `ABSORB A ; FINAL ; ABSORB B ; FINAL` `DIGEST` is the digest of the longer message, and the
first `FINAL` gave the digest of the shorter; no `FINAL` changes the live state. -/
def Obligations.FinalThenMoreData : Prop :=
  (∀ s t : State, exec .final s = .next t → t.live = s.live) ∧
  ∀ (s t u : State) (w w₁ w₂ : Word) (ds : List Word) (m : List Byte) (len : BitVec 24),
    s.live.Holds m → m.length + len.toNat ≤ 2 ^ 61 - 1 → ds.length = dataWords len →
    s.CommandAt w [] → exec .final s = .next t → t.CommandAt w₁ ds → exec (.absorb len) t = .next u →
    u.CommandAt w₂ [] →
    t.digest = some (sha256 m) ∧
    ∃ v, exec .final u = .next v ∧ v.digest = some (sha256 (m ++ inlineData len.toNat ds))

/-! ### What each command does: its whole next state -/

/-- spec/41_init_absorb.md R121. -/
def Obligations.InitResult : Prop :=
  encode .init = 0x01000000 ∧
  ∀ (s : State) (w : Word), s.CommandAt w [] →
    exec .init s = .next { s with
      live := { h := iv, buf := [], count := 0 }
      pc := s.pc + 1 }

/-- spec/41_init_absorb.md R124, R125: within the counter bound `ABSORB` completes with the live state of R122, whose
`COUNT` is the exact sum; beyond it, the sum taken as a natural number, it raises `LengthOverflow` and changes nothing
else. -/
def Obligations.AbsorbResult : Prop :=
  (∀ len : BitVec 24, (encode (.absorb len)).toNat = 0x02000000 + len.toNat) ∧
  ∀ (s : State) (w : Word) (ws : List Word) (len : BitVec 24),
    s.CommandAt w ws → ws.length = (len.toNat + 3) / 4 →
    (s.live.count.toNat + len.toNat ≤ 2 ^ 61 - 1 →
      exec (.absorb len) s = .next { s with
        live := s.live.absorb (inlineData len.toNat ws)
        pc := s.pc + 1 + (len.toNat + 3) / 4 } ∧
      (s.live.absorb (inlineData len.toNat ws)).count.toNat = s.live.count.toNat + len.toNat) ∧
    (2 ^ 61 - 1 < s.live.count.toNat + len.toNat →
      exec (.absorb len) s
        = .next { s with fault := true, cause := 3, fcmd := w, fpc := BitVec.ofNat 32 s.pc })

/-- spec/41_init_absorb.md R126: a zero-length `ABSORB` changes nothing but `pc`. -/
def Obligations.ZeroLengthAbsorb : Prop :=
  ∀ (s : State) (w : Word), s.Inv → s.CommandAt w [] → exec (.absorb 0) s = .next { s with pc := s.pc + 1 }

/-- spec/42_midstate.md R141: within the bound `ABSORBX` completes: it absorbs, then `MID` is the accumulator when the new
`COUNT` is a multiple of 64, else none; beyond it, it raises `LengthOverflow`. -/
def Obligations.AbsorbxResult : Prop :=
  (∀ len : BitVec 24, (encode (.absorbx len)).toNat = 0x03000000 + len.toNat) ∧
  ∀ (s : State) (w : Word) (ws : List Word) (len : BitVec 24),
    s.CommandAt w ws → ws.length = (len.toNat + 3) / 4 →
    (s.live.count.toNat + len.toNat ≤ 2 ^ 61 - 1 →
      exec (.absorbx len) s = .next { s with
        live := s.live.absorb (inlineData len.toNat ws)
        mid := if (s.live.count.toNat + len.toNat) % 64 = 0
          then some (s.live.absorb (inlineData len.toNat ws)).h else none
        pc := s.pc + 1 + (len.toNat + 3) / 4 }) ∧
    (2 ^ 61 - 1 < s.live.count.toNat + len.toNat →
      exec (.absorbx len) s
        = .next { s with fault := true, cause := 3, fcmd := w, fpc := BitVec.ofNat 32 s.pc })

/-- spec/42_midstate.md R144: `PRIME` completes for every length: a fresh state absorbs the prefix, and `MID` is the
accumulator when the prefix is a whole number of blocks, else none. It is exactly `INIT` followed by `ABSORBX` of the
same bytes: an engine `t` that runs those two commands ends with the same live state and the same `MID`. -/
def Obligations.PrimeResult : Prop :=
  (∀ len : BitVec 24, (encode (.prime len)).toNat = 0x06000000 + len.toNat) ∧
  ∀ (s : State) (w : Word) (ws : List Word) (len : BitVec 24),
    s.CommandAt w ws → ws.length = (len.toNat + 3) / 4 →
    let st := Hasher.absorb { h := iv, buf := [], count := 0 } (inlineData len.toNat ws)
    let mid := if len.toNat % 64 = 0 then some st.h else none
    exec (.prime len) s = .next { s with live := st, mid := mid, pc := s.pc + 1 + (len.toNat + 3) / 4 } ∧
    ∀ (t t₁ : State) (v v₁ : Word), t.CommandAt v [] → exec .init t = .next t₁ → t₁.CommandAt v₁ ws →
      ∃ t₂, exec (.absorbx len) t₁ = .next t₂ ∧ t₂.live = st ∧ t₂.mid = mid

/-- spec/42_midstate.md R145, R146: the three outcomes of `IMPORTI`, its ten in-line words written out. -/
def Obligations.ImportiResult : Prop :=
  encode .importi = 0x04000000 ∧
  ∀ (s : State) (w hi lo w0 w1 w2 w3 w4 w5 w6 w7 : Word),
    s.CommandAt w [hi, lo, w0, w1, w2, w3, w4, w5, w6, w7] →
    let L := hi.toNat * 2 ^ 32 + lo.toNat
    (L % 64 ≠ 0 → exec .importi s
      = .next { s with fault := true, cause := 2, fcmd := w, fpc := BitVec.ofNat 32 s.pc }) ∧
    (L % 64 = 0 → 2 ^ 61 - 1 < L → exec .importi s
      = .next { s with fault := true, cause := 3, fcmd := w, fpc := BitVec.ofNat 32 s.pc }) ∧
    (L % 64 = 0 → L ≤ 2 ^ 61 - 1 → exec .importi s = .next { s with
      live := { h := #v[w0, w1, w2, w3, w4, w5, w6, w7], buf := [], count := BitVec.ofNat 64 L }
      pc := s.pc + 11 })

/-- spec/42_midstate.md R145, R148: the four outcomes of `IMPORTM`, in the order of its checks. -/
def Obligations.ImportmResult : Prop :=
  encode .importm = 0x05000000 ∧
  ∀ (s : State) (w hi lo : Word), s.CommandAt w [hi, lo] →
    let L := hi.toNat * 2 ^ 32 + lo.toNat
    (s.mid = none → exec .importm s
      = .next { s with fault := true, cause := 4, fcmd := w, fpc := BitVec.ofNat 32 s.pc }) ∧
    (∀ words, s.mid = some words →
      (L % 64 ≠ 0 → exec .importm s
        = .next { s with fault := true, cause := 2, fcmd := w, fpc := BitVec.ofNat 32 s.pc }) ∧
      (L % 64 = 0 → 2 ^ 61 - 1 < L → exec .importm s
        = .next { s with fault := true, cause := 3, fcmd := w, fpc := BitVec.ofNat 32 s.pc }) ∧
      (L % 64 = 0 → L ≤ 2 ^ 61 - 1 → exec .importm s = .next { s with
        live := { h := words, buf := [], count := BitVec.ofNat 64 L }
        pc := s.pc + 3 }))

/-- spec/43_finalize.md R163: `FINAL` always completes and writes `DIGEST` and `pc` only: the accumulator of the working copy
folded over the complete blocks of `T.BUF ++ Pad(T.COUNT)`. -/
def Obligations.FinalResult : Prop :=
  encode .final = 0x07000000 ∧
  ∀ (s : State) (w : Word), s.CommandAt w [] →
    let S := s.live.buf ++ pad s.live.count
    exec .final s = .next { s with
      digest := some ((blocks (S.length / 64) S).foldl compress s.live.h)
      pc := s.pc + 1 }

/-- spec/44_clone.md R181: `SAVE s` copies the live state into slot `s`; the other slots and everything else stay. -/
def Obligations.SaveResult : Prop :=
  (∀ slot : BitVec 8, (encode (.save slot)).toNat = 0x08000000 + slot.toNat) ∧
  ∀ (s : State) (w : Word) (slot : BitVec 8) (i : Fin 4), s.CommandAt w [] → slot.toNat = i.val →
    exec (.save slot) s = .next { s with
      slots := s.slots.set i (some s.live)
      pc := s.pc + 1 }

/-- spec/44_clone.md R182: `RESTORE s` copies slot `s` into the live state, or raises `InvalidSource` when it holds none. -/
def Obligations.RestoreResult : Prop :=
  (∀ slot : BitVec 8, (encode (.restore slot)).toNat = 0x09000000 + slot.toNat) ∧
  ∀ (s : State) (w : Word) (slot : BitVec 8) (i : Fin 4), s.CommandAt w [] → slot.toNat = i.val →
    (s.slots[i] = none → exec (.restore slot) s
      = .next { s with fault := true, cause := 4, fcmd := w, fpc := BitVec.ofNat 32 s.pc }) ∧
    (∀ st, s.slots[i] = some st → exec (.restore slot) s = .next { s with live := st, pc := s.pc + 1 })

/-! ### The step -/

/-- When the word at `pc` of an engine that is not halted decodes, the step is that command's meaning
(spec/20_memory.md R52, spec/30_encoding.md R71). -/
def Obligations.StepRunsTheDecodedCommand : Prop :=
  ∀ (s : State) (w : Word) (i : Instr), s.fault = false → s.stream[s.pc]? = some w → decode w = .ok i →
    step s = exec i s

/-- spec/60_exceptions.md R207: a word that selects no command raises `IllegalCommand` at once, whether or not any word
follows it: reserved opcode, reserved field not zero, or a slot that does not exist. -/
def Obligations.IllegalWordFaults : Prop :=
  ∀ (s : State) (w : Word), s.fault = false → s.stream[s.pc]? = some w →
    let op := w.toNat / 2 ^ 24
    let low := w.toNat % 2 ^ 24
    (op = 0 ∨ 10 ≤ op ∨ ((op = 1 ∨ op = 7 ∨ op = 4 ∨ op = 5) ∧ low ≠ 0) ∨
      ((op = 8 ∨ op = 9) ∧ (low / 2 ^ 8 ≠ 0 ∨ 4 ≤ low % 2 ^ 8))) →
    step s = .next { s with fault := true, cause := 1, fcmd := w, fpc := BitVec.ofNat 32 s.pc }

/-- spec/10_state.md R29, spec/60_exceptions.md R202, R206: when the engine has no step: exactly when it is halted, when
the run has ended, or when it waits for in-line words; every other good state has a next state. That these states
answer a fault, and its names `halted`, `runEnded` and `awaitingWords`, are the model's (DEDUCED, log entry 4). -/
def Obligations.NoStepExactlyWhen : Prop :=
  ∀ s : State, s.Inv →
    (step s = .fault .halted ↔ s.fault = true) ∧
    (step s = .fault .runEnded ↔ s.Ended) ∧
    (step s = .fault .awaitingWords ↔ s.Waiting) ∧
    ((∃ t, step s = .next t) ↔ s.fault = false ∧ ¬ s.Ended ∧ ¬ s.Waiting)

/-- spec/60_exceptions.md R204, R205: a step that raises a fault writes the four fault registers and nothing else; `pc`
stays at the faulting command's word, which is what `FCMD` records; `STATUS` then shows the fault and its code. -/
def Obligations.FaultsArePrecise : Prop :=
  ∀ s t : State, step s = .next t → t.fault = true →
    ∃ (w : Word) (f : EngineFault), s.stream[s.pc]? = some w ∧
      t = { s with fault := true, cause := f.code, fcmd := w, fpc := BitVec.ofNat 32 s.pc } ∧
      t.status.getLsbD 0 = true ∧ t.status.extractLsb' 12 4 = f.code

/-- spec/60_exceptions.md R201: every step that raises a fault raises one of the four, under the condition of its row, and records
the command word and `pc mod 2^32`. -/
def Obligations.WhoRaisesWhichFault : Prop :=
  ∀ s t : State, step s = .next t → t.fault = true →
    ∃ w, s.stream[s.pc]? = some w ∧ t.fcmd = w ∧ t.fpc = BitVec.ofNat 32 s.pc ∧
      let importLength (L : Count) : Prop := ∃ ws, s.CommandAt w ws ∧
        ((decode w = .ok .importi ∧ ∃ h, importiOperands ws = some (L, h)) ∨
          (decode w = .ok .importm ∧ importmOperand ws = some L))
      (t.cause = 1 ∧ ∃ e, decode w = .error e) ∨
      (t.cause = 2 ∧ ∃ L, importLength L ∧ L.toNat % 64 ≠ 0) ∨
      (t.cause = 3 ∧ ((∃ len, (decode w = .ok (.absorb len) ∨ decode w = .ok (.absorbx len)) ∧
          2 ^ 61 - 1 < s.live.count.toNat + len.toNat) ∨
        ∃ L, importLength L ∧ 2 ^ 61 - 1 < L.toNat)) ∨
      (t.cause = 4 ∧ ((decode w = .ok .importm ∧ s.mid = none) ∨
        ∃ slot, ∃ j : Fin 4, decode w = .ok (.restore slot) ∧ slot.toNat = j.val ∧ s.slots[j] = none))

/-- spec/10_state.md R28: a command that completes sets `pc <- pc + 1 + n`; one that faults leaves `pc` and copies
`pc mod 2^32` to `FPC`; a host write does not reach `pc`. -/
def Obligations.ProgramCounterRule : Prop :=
  (∀ (s t : State) (i : Instr), s.fault = false → exec i s = .next t →
    (t.fault = false → t.pc = s.pc + 1 + i.inlineWords) ∧
    (t.fault = true → t.pc = s.pc ∧ t.fpc.toNat = s.pc % 2 ^ 32)) ∧
  ∀ (s : State) (offset : Nat) (value : Word), (hostWrite offset value s).pc = s.pc

/-- spec/60_exceptions.md R213: there is no control transfer, `pc` only grows, by `1 + n` for each completed command; and a
program of `N` words takes at most `N` steps: from any state whose `pc` lies in the stream, after `N − pc` steps at the
latest the engine has ended, waits or is halted, and has no step. -/
def Obligations.AtMostOneStepPerWord : Prop :=
  (∀ (s t : State) (w : Word) (i : Instr), s.stream[s.pc]? = some w → decode w = .ok i → step s = .next t →
    t.fault = false → t.pc = s.pc + 1 + i.inlineWords) ∧
  ∀ s : State, s.pc ≤ s.stream.length →
    ∃ k t, k ≤ s.stream.length - s.pc ∧ core.run k s = .next t ∧
      (t.Ended ∨ t.Waiting ∨ t.fault = true) ∧ ∀ u, step t ≠ .next u

/-! ### Frames: what a command leaves unchanged, whether it completes or faults -/

/-- The commands that write the live state only (spec/10_state.md R36: "`INIT`, `ABSORB`, `IMPORTI`, `IMPORTM`, … leave
`MID_VALID` and `DIGEST_VALID` as they are"; R27, R30 and R31 for the contents of `MID`, `DIGEST` and the slots): `MID`,
`DIGEST`, the slots and every byte of the stream stay; the fault registers stay unless the command faults. That the draw
counter, a field of the model's own, stays is the model's choice (DESIGN CHOICE, log entry 3). -/
def Obligations.FrameOfLiveCommands : Prop :=
  ∀ (s t : State) (i : Instr),
    (i = .init ∨ (∃ len, i = .absorb len) ∨ i = .importi ∨ i = .importm ∨ ∃ slot, i = .restore slot) →
    exec i s = .next t →
    t.mid = s.mid ∧ t.digest = s.digest ∧ t.slots = s.slots ∧ t.draws = s.draws ∧
    (∀ addr, t.streamByte addr = s.streamByte addr) ∧
    (t.fault = false → t.cause = s.cause ∧ t.fcmd = s.fcmd ∧ t.fpc = s.fpc)

/-- `ABSORBX` and `PRIME` also write `MID` (spec/10_state.md R27); `DIGEST`, the slots and every byte of the stream
stay (R30, R31), and the fault registers unless the command faults. That the draw counter, a field of the model's own,
stays is the model's choice (DESIGN CHOICE, log entry 3). -/
def Obligations.FrameOfExportCommands : Prop :=
  ∀ (s t : State) (i : Instr), (∃ len, i = .absorbx len ∨ i = .prime len) → exec i s = .next t →
    t.digest = s.digest ∧ t.slots = s.slots ∧ t.draws = s.draws ∧
    (∀ addr, t.streamByte addr = s.streamByte addr) ∧
    (t.fault = false → t.cause = s.cause ∧ t.fcmd = s.fcmd ∧ t.fpc = s.fpc)

/-- `FINAL` writes `DIGEST` and `pc` and `SAVE s` writes slot `s` and `pc` (spec/43_finalize.md R163, spec/44_clone.md R181):
everything else stays. That the draw counter, a field of the model's own, stays is the model's choice (DESIGN CHOICE,
log entry 3), in both clauses. -/
def Obligations.FrameOfFinalAndSave : Prop :=
  (∀ s t : State, exec .final s = .next t →
    t.live = s.live ∧ t.mid = s.mid ∧ t.slots = s.slots ∧ t.draws = s.draws ∧
    (∀ addr, t.streamByte addr = s.streamByte addr) ∧
    t.fault = s.fault ∧ t.cause = s.cause ∧ t.fcmd = s.fcmd ∧ t.fpc = s.fpc) ∧
  (∀ (s t : State) (slot : BitVec 8), slotLegal slot = true → exec (.save slot) s = .next t →
    t.live = s.live ∧ t.mid = s.mid ∧ t.digest = s.digest ∧ t.draws = s.draws ∧
    (∀ addr, t.streamByte addr = s.streamByte addr) ∧
    t.fault = s.fault ∧ t.cause = s.cause ∧ t.fcmd = s.fcmd ∧ t.fpc = s.fpc ∧
    ∀ j : Fin 4, j.val ≠ slot.toNat → t.slots[j] = s.slots[j])

/-! ### Whole-machine rules -/

/-- spec/10_state.md R27: `MID` is written only by `ABSORBX` and `PRIME`. -/
def Obligations.MidIsWrittenOnlyByExports : Prop :=
  ∀ s t : State, step s = .next t → t.mid ≠ s.mid →
    ∃ w len, s.stream[s.pc]? = some w ∧ (decode w = .ok (.absorbx len) ∨ decode w = .ok (.prime len))

/-- spec/10_state.md R30: `DIGEST` is written only by `FINAL`. -/
def Obligations.DigestIsWrittenOnlyByFinal : Prop :=
  ∀ s t : State, step s = .next t → t.digest ≠ s.digest →
    ∃ w, s.stream[s.pc]? = some w ∧ decode w = .ok .final

/-- spec/10_state.md R31: "no command other than `SAVE s` changes `SLOT[s]`". -/
def Obligations.SlotIsWrittenOnlyBySave : Prop :=
  ∀ (s t : State) (j : Fin 4), step s = .next t → t.slots[j] ≠ s.slots[j] →
    ∃ w slot, s.stream[s.pc]? = some w ∧ decode w = .ok (.save slot) ∧ slot.toNat = j.val

/-- spec/10_state.md R21, R24: the live state is written only by the commands the rules name; `FINAL` and `SAVE` only
read it. -/
def Obligations.LiveIsWrittenOnlyBy : Prop :=
  ∀ s t : State, step s = .next t → t.live ≠ s.live →
    ∃ w i, s.stream[s.pc]? = some w ∧ decode w = .ok i ∧ i ≠ .final ∧ ∀ slot, i ≠ .save slot

/-- spec/20_memory.md R53: no command writes the command stream. -/
def Obligations.StreamIsNeverWritten : Prop :=
  ∀ s t : State, step s = .next t → t.stream = s.stream

/-- spec/10_state.md R30: "`DIGEST` is read only by the host": a step does the same whatever `DIGEST` holds. -/
def Obligations.DigestInfluencesNoStep : Prop :=
  ∀ (s t : State) (d : Option Words8), step s = .next t →
    ∃ d', step { s with digest := d } = .next { t with digest := d' }

/-- spec/44_clone.md R184: once slot `j` holds a state, whatever runs, if no `SAVE j` is among it, a following
`RESTORE j` gives that state back. -/
def Obligations.SlotsAreIndependent : Prop :=
  ∀ (s t : State) (w : Word) (slot : BitVec 8) (j : Fin 4) (st : Hasher), slot.toNat = j.val →
    s.slots[j] = some st → RunsTo (fun i => i ≠ .save slot) s t → t.CommandAt w [] →
    ∃ u, exec (.restore slot) t = .next u ∧ u.live = st

/-- spec/42_midstate.md R149 ("prime once, clone many"): once `MID` holds a snapshot, whatever runs, if no `ABSORBX`
and no `PRIME` is among it, a following `IMPORTM` of a legal length starts from that snapshot. -/
def Obligations.SnapshotIsImmutable : Prop :=
  ∀ (s t : State) (w hi lo : Word) (words : Words8), s.mid = some words →
    RunsTo (fun i => ∀ len, i ≠ .absorbx len ∧ i ≠ .prime len) s t → t.CommandAt w [hi, lo] →
    (hi.toNat * 2 ^ 32 + lo.toNat) % 64 = 0 → hi.toNat * 2 ^ 32 + lo.toNat ≤ 2 ^ 61 - 1 →
    ∃ u, exec .importm t = .next u ∧
      u.live = { h := words, buf := [], count := BitVec.ofNat 64 (hi.toNat * 2 ^ 32 + lo.toNat) } ∧
      u.mid = some words

/-! ### Invariants and reset -/

/-- The state right after reset, with any stream presented, meets the invariant (spec/10_state.md R26, R39). -/
def Obligations.ResetMeetsInvariant : Prop :=
  State.reset.Inv ∧ ∀ (s : State) (stream : List Word), (s.resetTo stream).Inv

/-- Headline: every step keeps the invariant (spec/10_state.md R26 "They hold after reset and after every command,
faulting or not", R33). -/
def Obligations.StepKeepsInvariant : Prop :=
  ∀ s t : State, s.Inv → step s = .next t → t.Inv

/-- Every state the engine can come to under steps, resets, host reads and host writes meets the invariant
(spec/10_state.md R26). -/
def Obligations.ReachableStatesMeetInvariant : Prop :=
  ∀ s : State, Reachable s → s.Inv

/-- spec/70_reset_and_hazards.md R230: reset, from any state, halted or not, gives every piece of state the value the rule lists. It says
nothing about the model's own draw counter (log entry 3). -/
def Obligations.ResetTransition : Prop :=
  ∀ (s : State) (stream : List Word),
    let t := s.resetTo stream
    t.live = { h := iv, buf := [], count := 0 } ∧ t.mid = none ∧ t.digest = none ∧
    (∀ j : Fin 4, t.slots[j] = none) ∧ t.fault = false ∧ t.cause = 0 ∧ t.fcmd = 0 ∧ t.fpc = 0 ∧ t.pc = 0 ∧
    t.stream = stream

/-! ### The host's view -/

/-- spec/10_state.md R32: every field of `STATUS`, in every state; its value at reset; and that a host write changes no
field. -/
def Obligations.StatusFields : Prop :=
  State.reset.status = 0x00000008 ∧
  (∀ (s : State) (offset : Nat) (value : Word), (hostWrite offset value s).status = s.status) ∧
  ∀ s : State,
    s.status.getLsbD 0 = s.fault ∧
    s.status.getLsbD 1 = s.digest.isSome ∧
    s.status.getLsbD 2 = s.mid.isSome ∧
    (s.status.getLsbD 3 = true ↔ s.live.count.toNat % 64 = 0) ∧
    (s.status.extractLsb' 4 6).toNat = s.live.count.toNat % 64 ∧
    s.status.extractLsb' 10 2 = 0 ∧
    s.status.extractLsb' 12 4 = s.cause ∧
    (∀ j : Fin 4, s.status.getLsbD (16 + j.val) = (s.slots[j]).isSome) ∧
    s.status.extractLsb' 20 12 = 0

/-- spec/10_state.md R34, R35: the register map where the spec says what a word holds, each read without a side effect; an
offset with no register reads 0; a write to any offset is ignored. -/
def Obligations.HostRegisterMap : Prop :=
  (∀ (offset : Nat) (value : Word) (s : State), hostWrite offset value s = s) ∧
  ∀ s : State,
    hostRead 0x00 s = (s.status, s) ∧ hostRead 0x04 s = (s.fcmd, s) ∧ hostRead 0x08 s = (s.fpc, s) ∧
    hostRead 0x0C s = (0x00000001, s) ∧
    (∃ hi lo : Word, hostRead 0x10 s = (hi, s) ∧ hostRead 0x14 s = (lo, s) ∧
      hi.toNat * 2 ^ 32 + lo.toNat = s.live.count.toNat) ∧
    (∀ (d : Words8) (i : Fin 8), s.digest = some d → hostRead (0x20 + 4 * i.val) s = (d[i], s)) ∧
    (∀ (m : Words8) (i : Fin 8), s.mid = some m → hostRead (0x40 + 4 * i.val) s = (m[i], s)) ∧
    (∀ offset, offset ∉ [0x00, 0x04, 0x08, 0x0C, 0x10, 0x14] → offset ∉ (List.range 16).map (0x20 + 4 * ·) →
      hostRead offset s = (0, s))

/-- spec/20_memory.md R55, R58: a host read has no side effect on the engine, and a host write none at all. What a read
may change is the model's own draw counter (log entry 3). -/
def Obligations.HostAccessHasNoSideEffect : Prop :=
  (∀ (offset : Nat) (s : State), { (hostRead offset s).2 with draws := s.draws } = s) ∧
  (∀ (offset : Nat) (value : Word) (s : State), hostWrite offset value s = s)

/-- spec/10_state.md R21, R31: the host cannot see the accumulator, the buffered bytes or a slot's contents: a register's
value depends on the live state through `COUNT` only and on a slot through its valid bit only. -/
def Obligations.HostSeesNoHasherState : Prop :=
  ∀ (s : State) (st : Hasher) (slots : Vector (Option Hasher) 4) (offset : Nat), st.count = s.live.count →
    (∀ j : Fin 4, (slots[j]).isSome = (s.slots[j]).isSome) →
    hostRegister offset { s with live := st, slots := slots } = hostRegister offset s

/-- The model's choice for spec/93_implementation_defined.md U3 (log entry 3): a host read of an empty `DIGEST` or `MID` word is a fresh
draw of the free value, whatever that value is, and the next such read takes the next draw. -/
def Obligations.UnspecifiedReadsAreFreshDraws : Prop :=
  ∀ (s : State) (i : Fin 8),
    (s.digest = none →
      hostRead (0x20 + 4 * i.val) s = (Config.freeWord s.draws, { s with draws := s.draws + 1 })) ∧
    (s.mid = none →
      hostRead (0x40 + 4 * i.val) s = (Config.freeWord s.draws, { s with draws := s.draws + 1 }))

/-- spec/70_reset_and_hazards.md R240 (table), spec/43_finalize.md R167: the number of `Compress` calls of each command is what the
table says; and what the command, run by `exec`, leaves is its start accumulator folded with `Compress` over exactly that many
whole blocks of its bytes: `BUF` and the data for `ABSORB` and `ABSORBX`, the data alone from `IV` for `PRIME`, `BUF` and the padding for
`FINAL`. The five commands with no call leave an accumulator that was there before: `IV`, the in-line words, `MID`, a slot's, or the
one they found, and they leave `DIGEST` alone. -/
def Obligations.CompressCallCounts : Prop :=
  ∀ (s : State) (len : BitVec 24) (slot : BitVec 8), s.live.buf.length = s.live.count.toNat % 64 →
    let fill := s.live.count.toNat % 64
    let compressed (i : Instr) (h : Words8) (bytes : List Byte) (h' : Words8) : Prop :=
      (∀ b ∈ blocks (compressCalls i s) bytes, b.length = 64) ∧
      h' = (blocks (compressCalls i s) bytes).foldl compress h
    (∀ i ∈ [Instr.init, .importi, .importm, .save slot, .restore slot], compressCalls i s = 0) ∧
    compressCalls (.absorb len) s = (fill + len.toNat) / 64 ∧
    compressCalls (.absorbx len) s = (fill + len.toNat) / 64 ∧
    compressCalls (.prime len) s = len.toNat / 64 ∧
    (fill ≤ 55 → compressCalls .final s = 1) ∧ (56 ≤ fill → compressCalls .final s = 2) ∧
    (∀ w ws, s.CommandAt w ws → ws.length = dataWords len →
      (s.live.count.toNat + len.toNat ≤ 2 ^ 61 - 1 → ∀ i ∈ [Instr.absorb len, .absorbx len],
        ∃ t, exec i s = .next t ∧ compressed i s.live.h (s.live.buf ++ inlineData len.toNat ws) t.live.h) ∧
      ∃ t, exec (.prime len) s = .next t ∧ compressed (.prime len) iv (inlineData len.toNat ws) t.live.h) ∧
    (∀ w, s.CommandAt w [] →
      ∃ t d, exec .final s = .next t ∧ t.digest = some d ∧
        compressed .final s.live.h (s.live.buf ++ pad s.live.count) d) ∧
    (∀ t, exec .init s = .next t → t.live.h = iv ∧ t.digest = s.digest) ∧
    (∀ t w ws, s.CommandAt w ws → ws.length = 10 → exec .importi s = .next t →
      (t.live.h = s.live.h ∨ ∃ L, importiOperands ws = some (L, t.live.h)) ∧ t.digest = s.digest) ∧
    (∀ t, exec .importm s = .next t → (t.live.h = s.live.h ∨ s.mid = some t.live.h) ∧ t.digest = s.digest) ∧
    (∀ t, exec (.save slot) s = .next t → t.live.h = s.live.h ∧ t.digest = s.digest) ∧
    (∀ t, exec (.restore slot) s = .next t →
      (t.live.h = s.live.h ∨ ∃ (j : Fin 4) (st : Hasher), s.slots[j] = some st ∧ t.live.h = st.h) ∧
      t.digest = s.digest)
end

