-- ==== Sys2Proof/Laws/Bytes.lean ====
section
/-! SUPPORT. Lengths of the byte and word sequences, and that packing and unpacking lose nothing. -/

namespace Sys2Proof.Machine

@[simp] theorem bytes32_length (w : Word) : (bytes32 w).length = 4 := rfl

@[simp] theorem be64bytes_length (v : BitVec 64) : (be64bytes v).length = 8 := rfl

@[simp] theorem wordBytes_nil : wordBytes [] = [] := rfl

@[simp] theorem wordBytes_cons (w : Word) (ws : List Word) : wordBytes (w :: ws) = bytes32 w ++ wordBytes ws := by
  simp [wordBytes]

@[simp] theorem wordBytes_append (xs ys : List Word) : wordBytes (xs ++ ys) = wordBytes xs ++ wordBytes ys := by
  simp [wordBytes]

@[simp] theorem wordBytes_length (ws : List Word) : (wordBytes ws).length = 4 * ws.length := by
  induction ws with
  | nil => rfl
  | cons w ws ih => simp [ih]; omega

theorem inlineData_length (len : Nat) (ws : List Word) : (inlineData len ws).length = min len (4 * ws.length) := by
  simp [inlineData]

theorem inlineData_length_of_dataWords {len : BitVec 24} {ws : List Word} (h : ws.length = dataWords len) :
    (inlineData len.toNat ws).length = len.toNat := by
  rw [inlineData_length, h, dataWords]; omega

theorem packData_length (D : List Byte) : (packData D).length = (D.length + 3) / 4 := by
  induction D using packData.induct with
  | case1 b0 b1 b2 b3 rest ih => simp [packData, ih]; omega
  | case2 => simp [packData]
  | case3 => simp [packData]
  | case4 => simp [packData]
  | case5 => simp [packData]

theorem wordsOfBytes_length (bs : List Byte) : (wordsOfBytes bs).length = bs.length / 4 := by
  induction bs using wordsOfBytes.induct with
  | case1 b0 b1 b2 b3 rest ih => simp [wordsOfBytes, ih]; omega
  | case2 bs h =>
    rw [wordsOfBytes.eq_2 bs h]
    exact match bs, h with
    | [], _ => by simp
    | [_], _ => by simp
    | [_, _], _ => by simp
    | [_, _, _], _ => by simp
    | a :: b :: c :: d :: r, h => absurd rfl (h a b c d r)

theorem importiOperands_of_length {ws : List Word} (h : ws.length = 10) :
    ∃ hi lo w0 w1 w2 w3 w4 w5 w6 w7, ws = [hi, lo, w0, w1, w2, w3, w4, w5, w6, w7] ∧
      importiOperands ws = some (len64 hi lo, #v[w0, w1, w2, w3, w4, w5, w6, w7]) := by
  match ws, h with
  | [hi, lo, w0, w1, w2, w3, w4, w5, w6, w7], _ => exact ⟨hi, lo, w0, w1, w2, w3, w4, w5, w6, w7, rfl, rfl⟩

theorem importmOperand_of_length {ws : List Word} (h : ws.length = 2) :
    ∃ hi lo, ws = [hi, lo] ∧ importmOperand ws = some (len64 hi lo) := by
  match ws, h with
  | [hi, lo], _ => exact ⟨hi, lo, rfl, rfl⟩

end Sys2Proof.Machine
end

