-- ==== Sys2Proof/Laws/PerInstr.lean ====
section
/-! SUPPORT. Statements about an instruction as text, one lemma per constructor: its command word carries its opcode in the top byte, and the
number of in-line words it carries is at most the largest of spec/30_encoding.md R76. -/

namespace Sys2Proof.Laws.EncodedForm

/-- The opcode number of an instruction (spec/30_encoding.md R78). -/
def opcodeNumber : Instr → Nat
  | .init => 1
  | .absorb _ => 2
  | .absorbx _ => 3
  | .importi => 4
  | .importm => 5
  | .prime _ => 6
  | .final => 7
  | .save _ => 8
  | .restore _ => 9

/-- `OP` of the command word is the instruction's opcode, and `n ≤ 4 194 304`. -/
def Statement (i : Instr) : Prop :=
  (opField (encode i)).toNat = opcodeNumber i ∧ i.inlineWords ≤ 4194304

/-- The value of an appended pair of fields. -/
theorem append_toNat {n m : Nat} (x : BitVec n) (y : BitVec m) : (x ++ y).toNat = x.toNat * 2 ^ m + y.toNat := by
  rw [BitVec.toNat_append, ← Nat.shiftLeft_add_eq_or_of_lt y.isLt, Nat.shiftLeft_eq]

theorem opField_toNat (w : Word) : (opField w).toNat = w.toNat / 2 ^ 24 := by
  have := w.isLt
  rw [opField, BitVec.extractLsb'_toNat, Nat.shiftRight_eq_div_pow]
  omega

theorem opField_append (op : BitVec 8) (x : BitVec 24) : (opField (op ++ x)).toNat = op.toNat := by
  have h : BitVec.toNat (w := 32) (op ++ x) = op.toNat * 2 ^ 24 + x.toNat := append_toNat op x
  rw [opField_toNat, h]
  omega

theorem dataWords_le (len : BitVec 24) : dataWords len ≤ 4194304 := by
  have := len.isLt
  unfold dataWords; omega

theorem opField_slot (op : BitVec 8) (slot : BitVec 8) : (opField (op ++ 0#16 ++ slot)).toNat = op.toNat := by
  have h1 : BitVec.toNat (w := 32) (op ++ 0#16 ++ slot) = (op ++ 0#16).toNat * 2 ^ 8 + slot.toNat :=
    append_toNat (op ++ 0#16) slot
  have h2 := append_toNat op 0#16
  rw [opField_toNat, h1, h2]
  have := slot.isLt
  simp only [BitVec.toNat_ofNat]
  omega

theorem init : Statement .init := ⟨by decide, by decide⟩
theorem absorb (len : BitVec 24) : Statement (.absorb len) :=
  ⟨opField_append 0x02#8 len, dataWords_le len⟩
theorem absorbx (len : BitVec 24) : Statement (.absorbx len) :=
  ⟨opField_append 0x03#8 len, dataWords_le len⟩
theorem importi : Statement .importi := ⟨by decide, by decide⟩
theorem importm : Statement .importm := ⟨by decide, by decide⟩
theorem prime (len : BitVec 24) : Statement (.prime len) :=
  ⟨opField_append 0x06#8 len, dataWords_le len⟩
theorem final : Statement .final := ⟨by decide, by decide⟩
theorem save (slot : BitVec 8) : Statement (.save slot) :=
  ⟨opField_slot 0x08#8 slot, Nat.zero_le _⟩
theorem restore (slot : BitVec 8) : Statement (.restore slot) :=
  ⟨opField_slot 0x09#8 slot, Nat.zero_le _⟩

end Sys2Proof.Laws.EncodedForm
end

