-- ==== Sys2Proof/Laws/Decode.lean ====
section
/-! SUPPORT. The fields of a command word, and the command word of an instruction, as numbers. -/

namespace Sys2Proof

theorem lenField_toNat (w : Word) : (lenField w).toNat = w.toNat % 2 ^ 24 := by
  rw [lenField, BitVec.extractLsb'_toNat]; simp

theorem slotField_toNat (w : Word) : (slotField w).toNat = w.toNat % 2 ^ 8 := by
  rw [slotField, BitVec.extractLsb'_toNat]; simp

theorem slotReserved_toNat (w : Word) : (slotReserved w).toNat = w.toNat / 2 ^ 8 % 2 ^ 16 := by
  rw [slotReserved, BitVec.extractLsb'_toNat, Nat.shiftRight_eq_div_pow]

theorem lenField_eq_zero (w : Word) : lenField w = 0 ↔ w.toNat % 2 ^ 24 = 0 := by
  rw [← BitVec.toNat_inj, lenField_toNat]; simp

theorem slotReserved_eq_zero (w : Word) : slotReserved w = 0 ↔ w.toNat / 2 ^ 8 % 2 ^ 16 = 0 := by
  rw [← BitVec.toNat_inj, slotReserved_toNat]; simp

/-- A command word of formats Z, L and M: an opcode over 24 bits. -/
theorem opcodeOverLen_toNat (op : BitVec 8) (x : BitVec 24) :
    BitVec.toNat (w := 32) (op ++ x) = op.toNat * 2 ^ 24 + x.toNat :=
  Laws.EncodedForm.append_toNat op x

/-- A command word of format S: an opcode over 16 zero bits over a slot number. -/
theorem opcodeOverSlot_toNat (op slot : BitVec 8) :
    BitVec.toNat (w := 32) (op ++ 0#16 ++ slot) = op.toNat * 2 ^ 24 + slot.toNat := by
  have h₁ : BitVec.toNat (w := 32) (op ++ 0#16 ++ slot) = (op ++ 0#16).toNat * 2 ^ 8 + slot.toNat :=
    Laws.EncodedForm.append_toNat (op ++ 0#16) slot
  have h₂ := Laws.EncodedForm.append_toNat op 0#16
  rw [h₁, h₂]; simp only [BitVec.toNat_ofNat]; omega

/-- A mask of high ones keeps the high part of a word. -/
theorem highMask_toNat (w : Word) {k : Nat} (hk : k ≤ 32) :
    (w &&& (BitVec.allOnes 32 <<< k)).toNat = w.toNat / 2 ^ k * 2 ^ k := by
  have h : w &&& (BitVec.allOnes 32 <<< k) = (w >>> k) <<< k := by
    apply BitVec.eq_of_getLsbD_eq
    intro i hi
    simp only [BitVec.getLsbD_and, BitVec.getLsbD_shiftLeft, BitVec.getLsbD_ushiftRight, BitVec.getLsbD_allOnes]
    by_cases hik : i < k
    · simp [hik]
    · have : k + (i - k) = i := by omega
      simp [hik, hi, this]; intro; omega
  rw [h, BitVec.toNat_shiftLeft, BitVec.toNat_ushiftRight, Nat.shiftRight_eq_div_pow, Nat.shiftLeft_eq]
  exact Nat.mod_eq_of_lt (Nat.lt_of_le_of_lt (Nat.div_mul_le_self _ _) w.isLt)

end Sys2Proof
end

