-- ==== Sys2Proof/Laws/State.lean ====
section
/-! SUPPORT. One lemma per field per update of State, true by rfl, so that no proof unfolds a record update. -/

namespace Sys2Proof.Machine

/-! `State.advance` -/
@[simp] theorem State.advance_live (s : State) (n : Nat) : (s.advance n).live = s.live := rfl
@[simp] theorem State.advance_mid (s : State) (n : Nat) : (s.advance n).mid = s.mid := rfl
@[simp] theorem State.advance_digest (s : State) (n : Nat) : (s.advance n).digest = s.digest := rfl
@[simp] theorem State.advance_slots (s : State) (n : Nat) : (s.advance n).slots = s.slots := rfl
@[simp] theorem State.advance_fault (s : State) (n : Nat) : (s.advance n).fault = s.fault := rfl
@[simp] theorem State.advance_cause (s : State) (n : Nat) : (s.advance n).cause = s.cause := rfl
@[simp] theorem State.advance_fcmd (s : State) (n : Nat) : (s.advance n).fcmd = s.fcmd := rfl
@[simp] theorem State.advance_fpc (s : State) (n : Nat) : (s.advance n).fpc = s.fpc := rfl
@[simp] theorem State.advance_pc (s : State) (n : Nat) : (s.advance n).pc = s.pc + 1 + n := rfl
@[simp] theorem State.advance_stream (s : State) (n : Nat) : (s.advance n).stream = s.stream := rfl
@[simp] theorem State.advance_draws (s : State) (n : Nat) : (s.advance n).draws = s.draws := rfl

/-! `State.setLive` -/
@[simp] theorem State.setLive_live (s : State) (st : Hasher) : (s.setLive st).live = st := rfl
@[simp] theorem State.setLive_mid (s : State) (st : Hasher) : (s.setLive st).mid = s.mid := rfl
@[simp] theorem State.setLive_digest (s : State) (st : Hasher) : (s.setLive st).digest = s.digest := rfl
@[simp] theorem State.setLive_slots (s : State) (st : Hasher) : (s.setLive st).slots = s.slots := rfl
@[simp] theorem State.setLive_fault (s : State) (st : Hasher) : (s.setLive st).fault = s.fault := rfl
@[simp] theorem State.setLive_cause (s : State) (st : Hasher) : (s.setLive st).cause = s.cause := rfl
@[simp] theorem State.setLive_fcmd (s : State) (st : Hasher) : (s.setLive st).fcmd = s.fcmd := rfl
@[simp] theorem State.setLive_fpc (s : State) (st : Hasher) : (s.setLive st).fpc = s.fpc := rfl
@[simp] theorem State.setLive_pc (s : State) (st : Hasher) : (s.setLive st).pc = s.pc := rfl
@[simp] theorem State.setLive_stream (s : State) (st : Hasher) : (s.setLive st).stream = s.stream := rfl
@[simp] theorem State.setLive_draws (s : State) (st : Hasher) : (s.setLive st).draws = s.draws := rfl

/-! `State.setDigest` -/
@[simp] theorem State.setDigest_live (s : State) (d : Words8) : (s.setDigest d).live = s.live := rfl
@[simp] theorem State.setDigest_mid (s : State) (d : Words8) : (s.setDigest d).mid = s.mid := rfl
@[simp] theorem State.setDigest_digest (s : State) (d : Words8) : (s.setDigest d).digest = some d := rfl
@[simp] theorem State.setDigest_slots (s : State) (d : Words8) : (s.setDigest d).slots = s.slots := rfl
@[simp] theorem State.setDigest_fault (s : State) (d : Words8) : (s.setDigest d).fault = s.fault := rfl
@[simp] theorem State.setDigest_cause (s : State) (d : Words8) : (s.setDigest d).cause = s.cause := rfl
@[simp] theorem State.setDigest_fcmd (s : State) (d : Words8) : (s.setDigest d).fcmd = s.fcmd := rfl
@[simp] theorem State.setDigest_fpc (s : State) (d : Words8) : (s.setDigest d).fpc = s.fpc := rfl
@[simp] theorem State.setDigest_pc (s : State) (d : Words8) : (s.setDigest d).pc = s.pc := rfl
@[simp] theorem State.setDigest_stream (s : State) (d : Words8) : (s.setDigest d).stream = s.stream := rfl
@[simp] theorem State.setDigest_draws (s : State) (d : Words8) : (s.setDigest d).draws = s.draws := rfl

/-! `State.setSlot` -/
@[simp] theorem State.setSlot_live (s : State) (i : Fin Config.nslot) (st : Hasher) : (s.setSlot i st).live = s.live := rfl
@[simp] theorem State.setSlot_mid (s : State) (i : Fin Config.nslot) (st : Hasher) : (s.setSlot i st).mid = s.mid := rfl
@[simp] theorem State.setSlot_digest (s : State) (i : Fin Config.nslot) (st : Hasher) : (s.setSlot i st).digest = s.digest := rfl
@[simp] theorem State.setSlot_slots (s : State) (i : Fin Config.nslot) (st : Hasher) : (s.setSlot i st).slots = s.slots.set i (some st) := rfl
@[simp] theorem State.setSlot_fault (s : State) (i : Fin Config.nslot) (st : Hasher) : (s.setSlot i st).fault = s.fault := rfl
@[simp] theorem State.setSlot_cause (s : State) (i : Fin Config.nslot) (st : Hasher) : (s.setSlot i st).cause = s.cause := rfl
@[simp] theorem State.setSlot_fcmd (s : State) (i : Fin Config.nslot) (st : Hasher) : (s.setSlot i st).fcmd = s.fcmd := rfl
@[simp] theorem State.setSlot_fpc (s : State) (i : Fin Config.nslot) (st : Hasher) : (s.setSlot i st).fpc = s.fpc := rfl
@[simp] theorem State.setSlot_pc (s : State) (i : Fin Config.nslot) (st : Hasher) : (s.setSlot i st).pc = s.pc := rfl
@[simp] theorem State.setSlot_stream (s : State) (i : Fin Config.nslot) (st : Hasher) : (s.setSlot i st).stream = s.stream := rfl
@[simp] theorem State.setSlot_draws (s : State) (i : Fin Config.nslot) (st : Hasher) : (s.setSlot i st).draws = s.draws := rfl

/-! `State.exportMid` -/
@[simp] theorem State.exportMid_live (s : State) : s.exportMid.live = s.live := rfl
@[simp] theorem State.exportMid_mid (s : State) : s.exportMid.mid = if s.live.aligned then some s.live.h else none := rfl
@[simp] theorem State.exportMid_digest (s : State) : s.exportMid.digest = s.digest := rfl
@[simp] theorem State.exportMid_slots (s : State) : s.exportMid.slots = s.slots := rfl
@[simp] theorem State.exportMid_fault (s : State) : s.exportMid.fault = s.fault := rfl
@[simp] theorem State.exportMid_cause (s : State) : s.exportMid.cause = s.cause := rfl
@[simp] theorem State.exportMid_fcmd (s : State) : s.exportMid.fcmd = s.fcmd := rfl
@[simp] theorem State.exportMid_fpc (s : State) : s.exportMid.fpc = s.fpc := rfl
@[simp] theorem State.exportMid_pc (s : State) : s.exportMid.pc = s.pc := rfl
@[simp] theorem State.exportMid_stream (s : State) : s.exportMid.stream = s.stream := rfl
@[simp] theorem State.exportMid_draws (s : State) : s.exportMid.draws = s.draws := rfl

/-! `State.raise` -/
@[simp] theorem State.raise_live (s : State) (f : EngineFault) (w : Word) : (s.raise f w).live = s.live := rfl
@[simp] theorem State.raise_mid (s : State) (f : EngineFault) (w : Word) : (s.raise f w).mid = s.mid := rfl
@[simp] theorem State.raise_digest (s : State) (f : EngineFault) (w : Word) : (s.raise f w).digest = s.digest := rfl
@[simp] theorem State.raise_slots (s : State) (f : EngineFault) (w : Word) : (s.raise f w).slots = s.slots := rfl
@[simp] theorem State.raise_fault (s : State) (f : EngineFault) (w : Word) : (s.raise f w).fault = true := rfl
@[simp] theorem State.raise_cause (s : State) (f : EngineFault) (w : Word) : (s.raise f w).cause = f.code := rfl
@[simp] theorem State.raise_fcmd (s : State) (f : EngineFault) (w : Word) : (s.raise f w).fcmd = w := rfl
@[simp] theorem State.raise_fpc (s : State) (f : EngineFault) (w : Word) : (s.raise f w).fpc = BitVec.ofNat 32 s.pc := rfl
@[simp] theorem State.raise_pc (s : State) (f : EngineFault) (w : Word) : (s.raise f w).pc = s.pc := rfl
@[simp] theorem State.raise_stream (s : State) (f : EngineFault) (w : Word) : (s.raise f w).stream = s.stream := rfl
@[simp] theorem State.raise_draws (s : State) (f : EngineFault) (w : Word) : (s.raise f w).draws = s.draws := rfl

/-! `State.resetTo` -/
@[simp] theorem State.resetTo_live (s : State) (l : List Word) : (s.resetTo l).live = Hasher.initial := rfl
@[simp] theorem State.resetTo_mid (s : State) (l : List Word) : (s.resetTo l).mid = none := rfl
@[simp] theorem State.resetTo_digest (s : State) (l : List Word) : (s.resetTo l).digest = none := rfl
@[simp] theorem State.resetTo_slots (s : State) (l : List Word) : (s.resetTo l).slots = #v[none, none, none, none] := rfl
@[simp] theorem State.resetTo_fault (s : State) (l : List Word) : (s.resetTo l).fault = false := rfl
@[simp] theorem State.resetTo_cause (s : State) (l : List Word) : (s.resetTo l).cause = 0 := rfl
@[simp] theorem State.resetTo_fcmd (s : State) (l : List Word) : (s.resetTo l).fcmd = 0 := rfl
@[simp] theorem State.resetTo_fpc (s : State) (l : List Word) : (s.resetTo l).fpc = 0 := rfl
@[simp] theorem State.resetTo_pc (s : State) (l : List Word) : (s.resetTo l).pc = 0 := rfl
@[simp] theorem State.resetTo_stream (s : State) (l : List Word) : (s.resetTo l).stream = l := rfl
@[simp] theorem State.resetTo_draws (s : State) (l : List Word) : (s.resetTo l).draws = s.draws := rfl

end Sys2Proof.Machine
end

