-- ==== Sys2Proof/Laws/Ops.lean ====
section
/-! SUPPORT. One lemma for each shared operation that says everything it can do. -/

namespace Sys2Proof.Machine

/-- A command all of whose words lie inside the stream is given its words. -/
theorem withCommand_of_commandAt {n : Nat} {s : State} {w : Word} {ws : List Word}
    {run : Word → List Word → Host.Outcome State Fault Refusal} (h : s.CommandAt w ws) (hn : ws.length = n) :
    withCommand n s run = run w ws := by
  obtain ⟨rest, h⟩ := h
  subst hn
  simp [withCommand, h]

/-- `withCommand` waits, or runs the command on the words that stand in the stream. -/
theorem withCommand_cases (n : Nat) (s : State) (run : Word → List Word → Host.Outcome State Fault Refusal) :
    (s.stream.length ≤ s.pc + n ∧ withCommand n s run = .fault .awaitingWords) ∨
    ∃ w ws, s.CommandAt w ws ∧ ws.length = n ∧ s.pc + n < s.stream.length ∧ withCommand n s run = run w ws := by
  have hlen : (s.stream.drop s.pc).length = s.stream.length - s.pc := List.length_drop
  unfold withCommand
  split
  · next hd => rw [hd] at hlen; simp at hlen; exact .inl ⟨by omega, rfl⟩
  · next w rest hd =>
    rw [hd] at hlen; simp at hlen
    split
    · next hn => exact .inl ⟨by omega, rfl⟩
    · next hn =>
      refine .inr ⟨w, rest.take n, ⟨rest.drop n, ?_⟩, ?_, by omega, rfl⟩
      · rw [List.take_append_drop, hd]
      · rw [List.length_take]; omega

/-- The command word of `CommandAt` is the word at `pc`. -/
theorem State.CommandAt.fetch {s : State} {w : Word} {ws : List Word} (h : s.CommandAt w ws) :
    s.stream[s.pc]? = some w := by
  obtain ⟨rest, h⟩ := h
  rw [← Nat.add_zero s.pc, ← List.getElem?_drop, h]; rfl

/-- The words of `CommandAt` lie inside the stream. -/
theorem State.CommandAt.lt {s : State} {w : Word} {ws : List Word} (h : s.CommandAt w ws) :
    s.pc + ws.length < s.stream.length := by
  obtain ⟨rest, h⟩ := h
  have := congrArg List.length h
  simp at this; omega

/-- A slot number names a slot exactly when it is below `NSLOT`, and names the slot of that number. -/
theorem slotIndex_eq_some {slot : BitVec 8} {i : Fin Config.nslot} : slotIndex slot = some i ↔ slot.toNat = i.val := by
  unfold slotIndex
  split
  · next h => rw [Option.some.injEq, Fin.ext_iff]
  · next h => simp; omega

theorem slotIndex_of_legal {slot : BitVec 8} (h : slotLegal slot = true) : ∃ i, slotIndex slot = some i := by
  exact ⟨⟨slot.toNat, by simpa [slotLegal] using h⟩, slotIndex_eq_some.mpr rfl⟩

/-- The three outcomes of the import checks, in their order. -/
theorem importLengthFault_cases (len : Count) :
    (importLengthFault len = some .unalignedImport ∧ len.toNat % 64 ≠ 0) ∨
    (importLengthFault len = some .lengthOverflow ∧ len.toNat % 64 = 0 ∧ Config.maxCount < len.toNat) ∨
    (importLengthFault len = none ∧ len.toNat % 64 = 0 ∧ len.toNat ≤ Config.maxCount) := by
  unfold importLengthFault
  split
  · next h => exact .inl ⟨rfl, h⟩
  · next h =>
    have h0 : len.toNat % 64 = 0 := Decidable.not_not.mp h
    split
    · next hm => exact .inr (.inl ⟨rfl, h0, hm⟩)
    · next hm => exact .inr (.inr ⟨rfl, h0, Nat.le_of_not_lt hm⟩)

@[simp] theorem Hasher.overflows_iff (st : Hasher) (len : BitVec 24) :
    st.overflows len = true ↔ Config.maxCount < st.count.toNat + len.toNat := by
  simp [Hasher.overflows]

@[simp] theorem Hasher.aligned_iff (st : Hasher) : st.aligned = true ↔ st.count.toNat % 64 = 0 := by
  exact decide_eq_true_iff

theorem len64_toNat (hi lo : Word) : (len64 hi lo).toNat = hi.toNat * 2 ^ 32 + lo.toNat := by
  rw [len64, BitVec.toNat_append, ← Nat.shiftLeft_add_eq_or_of_lt lo.isLt, Nat.shiftLeft_eq]

end Sys2Proof.Machine
end

