-- ==== Sys2Proof/Laws/Sha256.lean ====
section
/-! SUPPORT. Lengths of the padding, the schedule and the block list, and how the fold over complete blocks takes a sequence
apart. -/

namespace Sys2Proof.Machine

@[simp] theorem roundConstants_length : roundConstants.length = 64 := rfl

theorem extendSchedule_length (n : Nat) (W : List Word) : (extendSchedule n W).length = W.length + n := by
  induction n generalizing W with
  | zero => rfl
  | succ n ih => simp [extendSchedule, ih]; omega

theorem schedule_length {blk : List Byte} (h : blk.length = 64) : (schedule blk).length = 64 := by
  simp [schedule, extendSchedule_length, wordsOfBytes_length, h]

@[simp] theorem blocks_length (nb : Nat) (S : List Byte) : (blocks nb S).length = nb := by
  induction nb generalizing S with
  | zero => rfl
  | succ nb ih => simp [blocks, ih]

/-- Every block of the list has 64 bytes when the sequence is long enough, so `compress` is only ever given whole
blocks. -/
theorem length_of_mem_blocks {nb : Nat} {S b : List Byte} (h : Config.blockBytes * nb ≤ S.length)
    (hb : b ∈ blocks nb S) : b.length = Config.blockBytes := by
  induction nb generalizing S with
  | zero => simp [blocks] at hb
  | succ nb ih =>
    rcases List.mem_cons.mp hb with rfl | hb
    · simp [Config.blockBytes] at h ⊢; omega
    · exact ih (by simp [Config.blockBytes] at h ⊢; omega) hb

/-- The blocks of a sequence are those of its first part, when that is whole blocks, then those of the rest. -/
theorem blocks_append {n m : Nat} {A B : List Byte} (h : A.length = Config.blockBytes * n) :
    blocks (n + m) (A ++ B) = blocks n A ++ blocks m B := by
  induction n generalizing A with
  | zero =>
    obtain rfl : A = [] := List.eq_nil_of_length_eq_zero (by simpa using h)
    simp [blocks]
  | succ n ih =>
    have h64 : Config.blockBytes ≤ A.length := by rw [h]; simp only [Config.blockBytes]; omega
    have hd : (A.drop Config.blockBytes).length = Config.blockBytes * n := by
      rw [List.length_drop, h]; simp only [Config.blockBytes]; omega
    rw [Nat.add_right_comm]
    simp only [blocks, List.take_append_of_le_length h64, List.drop_append_of_le_length h64, ih hd, List.cons_append]

/-- Compressing `A ++ B` with `A` whole blocks compresses `A` first, then the complete blocks of `B`. -/
theorem compressAll_append (h : Words8) {A : List Byte} (B : List Byte) (hA : A.length % Config.blockBytes = 0) :
    compressAll h (A ++ B) = compressAll (compressAll h A) B := by
  have hn : A.length = Config.blockBytes * (A.length / Config.blockBytes) := by
    simp only [Config.blockBytes] at *; omega
  have hq : (A ++ B).length / Config.blockBytes = A.length / Config.blockBytes + B.length / Config.blockBytes := by
    simp only [List.length_append, Config.blockBytes] at *; omega
  simp only [compressAll, hq, blocks_append hn, List.foldl_append]

/-- Fewer than 64 bytes are no complete block. -/
theorem compressAll_short (h : Words8) {S : List Byte} (hS : S.length < Config.blockBytes) : compressAll h S = h := by
  simp [compressAll, Nat.div_eq_of_lt hS, blocks]

@[simp] theorem compressAll_nil (h : Words8) : compressAll h [] = h := compressAll_short h (by decide)

/-- One whole block is one `Compress`. -/
theorem compressAll_block (h : Words8) {S : List Byte} (hS : S.length = Config.blockBytes) :
    compressAll h S = compress h S := by
  have : S.length / Config.blockBytes = 1 := by rw [hS]; rfl
  simp [compressAll, this, blocks, List.take_of_length_le (Nat.le_of_eq hS)]

/-- `Compress` folded over a sequence reads its whole blocks only. -/
theorem compressAll_whole (h : Words8) (S : List Byte) :
    compressAll h S = compressAll h (S.take (Config.blockBytes * (S.length / Config.blockBytes))) := by
  have hlen : (S.take (Config.blockBytes * (S.length / Config.blockBytes))).length
      = Config.blockBytes * (S.length / Config.blockBytes) := by
    rw [List.length_take]; exact Nat.min_eq_left (Nat.mul_div_le _ _)
  conv_lhs => rw [← List.take_append_drop (Config.blockBytes * (S.length / Config.blockBytes)) S,
    compressAll_append _ _ (by rw [hlen]; exact Nat.mul_mod_right _ _)]
  exact compressAll_short _ (by rw [List.length_drop]; simp only [Config.blockBytes]; omega)

/-- The bytes after the whole blocks of `A ++ B` are those of `B`, when `A` is whole blocks. -/
theorem drop_whole_append {A : List Byte} (B : List Byte) (hA : A.length % Config.blockBytes = 0) :
    (A ++ B).drop (Config.blockBytes * ((A ++ B).length / Config.blockBytes))
      = B.drop (Config.blockBytes * (B.length / Config.blockBytes)) := by
  simp only [Config.blockBytes] at hA ⊢
  rw [List.drop_append, List.drop_of_length_le (by simp only [List.length_append]; omega), List.nil_append]
  congr 1; simp only [List.length_append]; omega

theorem pad_length (cnt : Count) : (pad cnt).length = 1 + padZeros cnt + 8 := by
  simp [pad]; omega

theorem padZeros_lt (cnt : Count) : padZeros cnt < Config.blockBytes := Nat.mod_lt _ (by decide)

end Sys2Proof.Machine
end

