-- ==== Sys2Proof/Laws/Step.lean ====
section
/-! SUPPORT. What a meaning and a step can do, said once: a step that answers a next state either takes one of the engine's
faults or completes the command with the effect its rule gives. -/

namespace Sys2Proof.Machine

/-- The effect of a command that completes without a fault, from its in-line words. -/
def Completed : Instr → State → List Word → State → Prop
  | .init, s, _, t => t = (s.setLive Hasher.initial).advance 0
  | .absorb len, s, ws, t => s.live.overflows len = false ∧
      t = (s.setLive (s.live.absorb (inlineData len.toNat ws))).advance (dataWords len)
  | .absorbx len, s, ws, t => s.live.overflows len = false ∧
      t = (s.setLive (s.live.absorb (inlineData len.toNat ws))).exportMid.advance (dataWords len)
  | .importi, s, ws, t => ∃ len words, importiOperands ws = some (len, words) ∧ importLengthFault len = none ∧
      t = (s.setLive (Hasher.imported len words)).advance 10
  | .importm, s, ws, t => ∃ len words, importmOperand ws = some len ∧ s.mid = some words ∧
      importLengthFault len = none ∧ t = (s.setLive (Hasher.imported len words)).advance 2
  | .prime len, s, ws, t =>
      t = (s.setLive (Hasher.initial.absorb (inlineData len.toNat ws))).exportMid.advance (dataWords len)
  | .final, s, _, t => t = (s.setDigest s.live.finalDigest).advance 0
  | .save slot, s, _, t => ∃ i, slotIndex slot = some i ∧ t = (s.setSlot i s.live).advance 0
  | .restore slot, s, _, t => ∃ (i : Fin Config.nslot) (st : Hasher), slotIndex slot = some i ∧ s.slots[i] = some st ∧
      t = (s.setLive st).advance 0

/-- A command that completes moves `pc` past its words, and otherwise writes only the live state, `MID`, `DIGEST` and a
slot, each only if it is a command that may. -/
theorem Completed.frame {i : Instr} {s t : State} {ws : List Word} (h : Completed i s ws t) :
    ∃ live mid digest slots,
      t = { s with live := live, mid := mid, digest := digest, slots := slots, pc := s.pc + 1 + i.inlineWords } ∧
      (mid ≠ s.mid → ∃ len, i = .absorbx len ∨ i = .prime len) ∧
      (digest ≠ s.digest → i = .final) ∧
      (∀ j : Fin Config.nslot, slots[j] ≠ s.slots[j] → ∃ slot, i = .save slot ∧ slot.toNat = j.val) ∧
      (live ≠ s.live → i ≠ .final ∧ ∀ slot, i ≠ .save slot) := by
  cases i with
  | init => subst h; exact ⟨_, _, _, _, rfl, by simp, by simp, by simp, by simp⟩
  | absorb len => obtain ⟨_, rfl⟩ := h; exact ⟨_, _, _, _, rfl, by simp, by simp, by simp, by simp⟩
  | absorbx len =>
    obtain ⟨_, rfl⟩ := h
    exact ⟨_, _, _, _, rfl, by simp, by simp [State.exportMid], by simp [State.exportMid], by simp⟩
  | prime len => subst h; exact ⟨_, _, _, _, rfl, by simp, by simp [State.exportMid], by simp [State.exportMid], by simp⟩
  | importi => obtain ⟨_, _, _, _, rfl⟩ := h; exact ⟨_, _, _, _, rfl, by simp, by simp, by simp, by simp⟩
  | importm => obtain ⟨_, _, _, _, _, rfl⟩ := h; exact ⟨_, _, _, _, rfl, by simp, by simp, by simp, by simp⟩
  | final => subst h; exact ⟨_, _, _, _, rfl, by simp, by simp, by simp, by simp [State.setDigest]⟩
  | save slot =>
    obtain ⟨k, hk, rfl⟩ := h
    refine ⟨_, _, _, _, rfl, by simp, by simp, fun j hj => ⟨slot, rfl, ?_⟩, by simp [State.setSlot]⟩
    rw [slotIndex_eq_some] at hk
    by_contra hne
    apply hj
    simp only [State.setSlot, Fin.getElem_fin]
    rw [Vector.getElem_set_ne]; omega
  | restore slot => obtain ⟨_, _, _, _, rfl⟩ := h; exact ⟨_, _, _, _, rfl, by simp, by simp, by simp, by simp⟩

/-- The condition under which a command raises a fault of its own, from its in-line words. -/
def Raises : Instr → State → List Word → EngineFault → Prop
  | .init, _, _, _ => False
  | .absorb len, s, _, f => s.live.overflows len = true ∧ f = .lengthOverflow
  | .absorbx len, s, _, f => s.live.overflows len = true ∧ f = .lengthOverflow
  | .importi, _, ws, f => ∃ len words, importiOperands ws = some (len, words) ∧ importLengthFault len = some f
  | .importm, s, ws, f => ∃ len, importmOperand ws = some len ∧
      ((s.mid = none ∧ f = .invalidSource) ∨ (s.mid.isSome ∧ importLengthFault len = some f))
  | .prime _, _, _, _ => False
  | .final, _, _, _ => False
  | .save slot, _, _, f => slotIndex slot = none ∧ f = .illegalCommand
  | .restore slot, s, _, f => (slotIndex slot = none ∧ f = .illegalCommand) ∨
      ∃ i : Fin Config.nslot, slotIndex slot = some i ∧ s.slots[i] = none ∧ f = .invalidSource

/-- On its words a command completes or raises, and it does what `Completed` and `Raises` say. -/
theorem exec_of_commandAt {i : Instr} {s : State} {w : Word} {ws : List Word} (h : s.CommandAt w ws)
    (hn : ws.length = i.inlineWords) :
    (∃ t, Completed i s ws t ∧ exec i s = .next t) ∨
    (∃ f, Raises i s ws f ∧ exec i s = .next (s.raise f w)) := by
  have key : ∀ run, withCommand i.inlineWords s run = run w ws := fun _ => withCommand_of_commandAt h hn
  cases i with
  | init | prime len | final =>
    simp only [Instr.inlineWords] at key
    simp only [exec, execInit, execPrime, execFinal, key]
    exact .inl ⟨_, rfl, rfl⟩
  | absorb len | absorbx len =>
    simp only [Instr.inlineWords] at key
    simp only [exec, execAbsorb, execAbsorbx, key, Completed, Raises]
    cases s.live.overflows len with
    | true => exact .inr ⟨_, ⟨rfl, rfl⟩, rfl⟩
    | false => exact .inl ⟨_, ⟨rfl, rfl⟩, rfl⟩
  | importi =>
    simp only [Instr.inlineWords] at key hn
    obtain ⟨hi, lo, w0, w1, w2, w3, w4, w5, w6, w7, rfl, ho⟩ := importiOperands_of_length hn
    simp only [exec, execImporti, key, ho, Completed, Raises]
    cases hf : importLengthFault (len64 hi lo) with
    | none => exact .inl ⟨_, ⟨_, _, rfl, hf, rfl⟩, rfl⟩
    | some f => exact .inr ⟨f, ⟨_, _, rfl, hf⟩, rfl⟩
  | importm =>
    simp only [Instr.inlineWords] at key hn
    obtain ⟨hi, lo, rfl, ho⟩ := importmOperand_of_length hn
    simp only [exec, execImportm, key, ho, Completed, Raises]
    cases hm : s.mid with
    | none => exact .inr ⟨_, ⟨_, rfl, .inl ⟨rfl, rfl⟩⟩, rfl⟩
    | some words =>
      cases hf : importLengthFault (len64 hi lo) with
      | none => exact .inl ⟨_, ⟨_, _, rfl, rfl, hf, rfl⟩, rfl⟩
      | some f => exact .inr ⟨f, ⟨_, rfl, .inr ⟨rfl, hf⟩⟩, rfl⟩
  | save slot =>
    simp only [Instr.inlineWords] at key
    simp only [exec, execSave, key, Completed, Raises]
    cases hs : slotIndex slot with
    | none => exact .inr ⟨_, ⟨rfl, rfl⟩, rfl⟩
    | some i => exact .inl ⟨_, ⟨i, rfl, rfl⟩, rfl⟩
  | restore slot =>
    simp only [Instr.inlineWords] at key
    simp only [exec, execRestore, key, Completed, Raises]
    cases hs : slotIndex slot with
    | none => exact .inr ⟨_, .inl ⟨rfl, rfl⟩, rfl⟩
    | some i =>
      cases hi : s.slots[i] with
      | none => exact .inr ⟨_, .inr ⟨i, rfl, hi, rfl⟩, by simp only [hi]⟩
      | some st => exact .inl ⟨_, ⟨i, st, rfl, hi, rfl⟩, by simp only [hi]⟩

/-- A meaning waits, completes or raises; there is nothing else it can answer. -/
theorem exec_cases (i : Instr) (s : State) :
    (s.stream.length ≤ s.pc + i.inlineWords ∧ exec i s = .fault .awaitingWords) ∨
    ∃ w ws, s.CommandAt w ws ∧ ws.length = i.inlineWords ∧ s.pc + i.inlineWords < s.stream.length ∧
      ((∃ t, Completed i s ws t ∧ exec i s = .next t) ∨ (∃ f, Raises i s ws f ∧ exec i s = .next (s.raise f w))) := by
  rcases withCommand_cases i.inlineWords s fun w _ => .next (s.raise .illegalCommand w) with
    ⟨hl, _⟩ | ⟨w, ws, h, hn, hl, _⟩
  · have key : ∀ run, withCommand i.inlineWords s run = .fault .awaitingWords := by
      intro run
      rcases withCommand_cases i.inlineWords s run with ⟨_, hw⟩ | ⟨_, _, _, _, hlt, _⟩
      · exact hw
      · omega
    refine .inl ⟨hl, ?_⟩
    cases i <;> simp only [Instr.inlineWords] at key <;> simp only [exec] <;> exact key _
  · exact .inr ⟨w, ws, h, hn, hl, exec_of_commandAt h hn⟩

/-- What a meaning that answers a next state did. -/
theorem exec_next {i : Instr} {s t : State} (h : exec i s = .next t) :
    ∃ w ws, s.CommandAt w ws ∧ ws.length = i.inlineWords ∧
      (Completed i s ws t ∨ ∃ f, Raises i s ws f ∧ t = s.raise f w) := by
  rcases exec_cases i s with ⟨_, hw⟩ | ⟨w, ws, hc, hn, _, ⟨t', hd, he⟩ | ⟨f, hr, he⟩⟩
  · rw [h] at hw; cases hw
  · rw [h] at he; cases he; exact ⟨w, ws, hc, hn, .inl hd⟩
  · rw [h] at he; cases he; exact ⟨w, ws, hc, hn, .inr ⟨f, hr, rfl⟩⟩

/-- What a step that answers a next state did: the engine was not halted, a word stood at `pc`, and it was illegal and
faulted, or decoded and ran. -/
theorem step_next {s t : State} (h : step s = .next t) :
    s.fault = false ∧ ∃ w, s.stream[s.pc]? = some w ∧
      ((∃ e, decode w = .error e ∧ t = s.raise .illegalCommand w) ∨ ∃ i, decode w = .ok i ∧ exec i s = .next t) := by
  unfold step fetch raiseIllegal at h
  split at h
  · cases h
  · next hf =>
    split at h
    · cases h
    · next w hw =>
      refine ⟨by simpa using hf, w, hw, ?_⟩
      split at h
      · next e he => cases h; exact .inl ⟨e, he, rfl⟩
      · next i hi => exact .inr ⟨i, hi, h⟩

end Sys2Proof.Machine
end

