-- ==== Sys2Proof/Tests/Slice0.lean ====
section
/-! SUPPORT. Small tests, their expected values from the spec's worked examples and vectors (the rule or vector is named at each), and
for every statement with hypotheses a witness that meets them. -/

set_option maxRecDepth 100000

open Sys2Proof Sys2Proof.Machine

namespace Sys2Proof.Tests

/-- The state after reset with a stream presented. -/
def loaded (ws : List Word) : State := State.reset.resetTo ws

/-- The next state of an outcome, if it has one. -/
def nextOf : Host.Outcome State Fault Refusal → Option State
  | .next t => some t
  | _ => none

theorem nextOf_get (o : Host.Outcome State Fault Refusal) (h : (nextOf o).isSome = true) :
    o = .next ((nextOf o).get h) := by
  cases o with
  | next t => rfl
  | fault r => cases h
  | refused r => cases h

/-- The next state of a step, if there is one. -/
def stepped (s : State) : Option State := nextOf (step s)

/-- The reason there is none. -/
def stopped (s : State) : Option Fault :=
  match step s with
  | .fault r => some r
  | _ => none

/-- One fact about the next state, false where there is none. -/
def after (s : State) (p : State → Bool) : Bool := ((stepped s).map p).getD false

/-- What one command leaves when its meaning runs, if it gives a next state. -/
def ran (i : Instr) (s : State) : Option State := nextOf (exec i s)

theorem step_get (s : State) (h : (stepped s).isSome = true) : step s = .next ((stepped s).get h) := nextOf_get _ h

theorem ran_get (i : Instr) (s : State) (h : (ran i s).isSome = true) : exec i s = .next ((ran i s).get h) :=
  nextOf_get _ h

/-- "abc" absorbed from the initial state (41 R124, example). -/
def abc : Hasher := { h := iv, buf := [0x61, 0x62, 0x63], count := 3 }

/-- The midstate of 64 zero bytes (40 R110, example 2; V20). -/
def zeroMid : Words8 :=
  #v[0xda5698be, 0x17b9b469, 0x62335799, 0x779fbeca, 0x8ce5d491, 0xc0d26243, 0xbafef9ea, 0x1837a9d8]

/-- The digest of "abc" (V2). -/
def abcDigest : Words8 :=
  #v[0xba7816bf, 0x8f01cfea, 0x414140de, 0x5dae2223, 0xb00361a3, 0x96177a9c, 0xb410ff61, 0xf20015ad]

/-- The eight words of `IV`, as in-line words (41 R120). -/
def ivWords : List Word :=
  [0x6a09e667, 0xbb67ae85, 0x3c6ef372, 0xa54ff53a, 0x510e527f, 0x9b05688c, 0x1f83d9ab, 0x5be0cd19]

/-! ### WellFormed and decoding -/

/-- The smoke test: the one check of WellFormed refuses a slot that does not exist, at both ends of the range. -/
theorem test_wf_refuses_missing_slots :
    Instr.wf (.save 4) = false ∧ Instr.wf (.restore 4) = false ∧
    Instr.wf (.save 255) = false ∧ Instr.wf (.restore 255) = false := by decide

theorem test_wf_accepts_slot_three : Instr.wf (.save 3) = true ∧ Instr.wf (.restore 3) = true := by decide

/-- One word a constructor, bit by bit from R72 to R75: opcode in 31:24, the operand in the low bits. -/
theorem test_decode_each :
    decode 0b00000001000000000000000000000000 = .ok .init ∧
    decode 0b00000010100000000000000000000001 = .ok (.absorb 0x800001) ∧
    decode 0b00000011000000000000000001000000 = .ok (.absorbx 64) ∧
    decode 0b00000100000000000000000000000000 = .ok .importi ∧
    decode 0b00000101000000000000000000000000 = .ok .importm ∧
    decode 0b00000110111111111111111111111111 = .ok (.prime 0xFFFFFF) ∧
    decode 0b00000111000000000000000000000000 = .ok .final ∧
    decode 0b00001000000000000000000000000010 = .ok (.save 2) ∧
    decode 0b00001001000000000000000000000011 = .ok (.restore 3) := by decide

/-- V40 to V47, V57: the illegal words and why. -/
theorem test_decode_illegal :
    decode 0x00000000 = .error .reservedOpcode ∧ decode 0xFFFFFFFF = .error .reservedOpcode ∧
    decode 0x0A000000 = .error .reservedOpcode ∧ decode 0x01000001 = .error .reservedField ∧
    decode 0x07800000 = .error .reservedField ∧ decode 0x04000100 = .error .reservedField ∧
    decode 0x08000004 = .error .noSuchSlot ∧ decode 0x09000100 = .error .reservedField ∧
    decode 0x05000001 = .error .reservedField := by decide

/-- The encodings of R83. -/
theorem test_encode_worked :
    encode .init = 0x01000000 ∧ encode .final = 0x07000000 ∧ encode (.absorb 3) = 0x02000003 ∧
    encode (.absorbx 64) = 0x03000040 ∧ encode (.prime 0) = 0x06000000 ∧ encode (.save 2) = 0x08000002 ∧
    encode (.restore 0) = 0x09000000 ∧ encode .importm = 0x05000000 ∧ encode .importi = 0x04000000 := by decide

/-- `decodeTableWord` and `withFetchWord` on a row's pattern word. -/
theorem test_table_word :
    decodeTableWord 32 0x09000001 = some (.restore 1) ∧ decodeTableWord 32 0x08000104 = none ∧
    (State.reset.withFetchWord 32 0x05000000).stream = [0x05000000, 0, 0] := by decide

/-- R54, R83: "abcde" in two words, first byte highest, pad bytes ignored. -/
theorem test_inline_data :
    inlineData 5 [0x61626364, 0x65FFFFFF] = [0x61, 0x62, 0x63, 0x64, 0x65] ∧
    packData [0x61, 0x62, 0x63, 0x64, 0x65] = [0x61626364, 0x65000000] := by decide

/-! ### The functions of the compression step (V39) and the padding (95, section 3) -/

theorem test_sigma :
    bsig0 0x6a09e667 = 0xce20b47e ∧ bsig1 0x510e527f = 0x3587272b ∧ ssig0 0x12345678 = 0xe7fce6ee ∧
    ssig1 0x12345678 = 0xa1f78649 ∧ ssig0 0xffffffff = 0x1fffffff ∧ ssig1 0x80000000 = 0x00205000 := by
  decide +kernel

theorem test_ch_maj :
    ch 0x510e527f 0x9b05688c 0x1f83d9ab = 0x1f85c98c ∧ maj 0x6a09e667 0xbb67ae85 0x3c6ef372 = 0x3a6fe667 ∧
    ch 0xf0f0f0f0 0xcccccccc 0xaaaaaaaa = 0xcacacaca ∧ maj 0xf0f0f0f0 0xcccccccc 0xaaaaaaaa = 0xe8e8e8e8 := by
  decide +kernel

/-- V36. -/
theorem test_compress_zero_block : compress iv (List.replicate 64 0) = zeroMid := by decide +kernel

/-- V38: every addition wraps. -/
theorem test_compress_wraps : compress (Vector.replicate 8 0xffffffff) (List.replicate 64 0xff)
    = #v[0x0598127a, 0xaf11706e, 0x77401fff, 0xd730c549, 0x0b84c867, 0xa98c6ca3, 0xd7f3c0f9, 0x06a78b79] := by
  decide +kernel

/-- The table's boundary rows: `k` and the total length at 54, 55, 56, 63 and the largest counter. -/
theorem test_padding_rows :
    (padZeros 54, (pad 54).length) = (1, 10) ∧ (padZeros 55, (pad 55).length) = (0, 9) ∧
    (padZeros 56, (pad 56).length) = (63, 72) ∧ (padZeros 63, (pad 63).length) = (56, 65) ∧
    (pad 0x1FFFFFFFFFFFFFFF).drop 57 = [0xff, 0xff, 0xff, 0xff, 0xff, 0xff, 0xff, 0xf8] := by decide +kernel

/-! ### One step of each command -/

/-- 41 R121: `INIT` discards the buffered bytes; R231: `MID` stays. -/
theorem test_init : after { loaded [0x01000000] with live := abc, mid := some zeroMid }
    (fun t => t.live = Hasher.initial ∧ t.mid = some zeroMid ∧ t.pc = 1) = true := by decide +kernel

/-- 41 R124, example. -/
theorem test_absorb_abc : after (loaded [0x02000003, 0x61626300]) (fun t => t.live = abc ∧ t.pc = 2) = true := by
  decide +kernel

/-- V54: one byte more than the largest counter. -/
theorem test_absorb_overflow :
    after { loaded [0x02000001, 0] with live := { abc with count := 0x1FFFFFFFFFFFFFFF } }
      (fun t => t.fault ∧ t.cause = 3 ∧ t.fcmd = 0x02000001 ∧ t.live.count = 0x1FFFFFFFFFFFFFFF ∧ t.pc = 0) = true := by
  decide +kernel

/-- V26: `EXPORT` after reset. -/
theorem test_absorbx_export : after (loaded [0x03000000]) (fun t => t.mid = some iv ∧ t.status = 0x0000000C) = true := by
  decide +kernel

/-- V27: an unaligned export loses the snapshot, without a fault. -/
theorem test_absorbx_unaligned : after { loaded [0x03000003, 0x61626300] with mid := some zeroMid }
    (fun t => t.mid = none ∧ t.live = abc ∧ t.fault = false ∧ t.status = 0x00000030) = true := by decide +kernel

/-- V20. -/
theorem test_prime : after (loaded (0x06000040 :: List.replicate 16 0))
    (fun t => t.mid = some zeroMid ∧ t.live = { h := zeroMid, buf := [], count := 64 } ∧ t.pc = 17 ∧
      t.status = 0x0000000C) = true := by decide +kernel

/-- V29: `PRIME "abc"`. -/
theorem test_prime_unaligned : after { loaded [0x06000003, 0x61626300] with mid := some zeroMid }
    (fun t => t.mid = none ∧ t.live = abc ∧ t.fault = false) = true := by decide +kernel

/-- 42 R146, example: the words in order, the length high word first. -/
theorem test_importi : after (loaded ([0x04000000, 1, 0x40] ++ ivWords))
    (fun t => t.live = { h := iv, buf := [], count := 0x100000040 } ∧ t.pc = 11) = true := by decide +kernel

/-- V52: unaligned before too long. -/
theorem test_importi_priority : after (loaded ([0x04000000, 0x20000000, 1] ++ ivWords))
    (fun t => t.cause = 2 ∧ t.fcmd = 0x04000000 ∧ t.status = 0x00002009) = true := by decide +kernel

/-- 42 R148: `MID` is read and kept. -/
theorem test_importm : after { loaded [0x05000000, 0, 64] with mid := some zeroMid }
    (fun t => t.live = { h := zeroMid, buf := [], count := 64 } ∧ t.mid = some zeroMid ∧ t.pc = 3) = true := by
  decide +kernel

/-- V53: the invalid source before everything. -/
theorem test_importm_priority : after (loaded [0x05000000, 0x20000000, 1])
    (fun t => t.cause = 4 ∧ t.fcmd = 0x05000000 ∧ t.status = 0x00004009) = true := by decide +kernel

/-- 43 R163, example: the digest of "abc", the live state as before. -/
theorem test_final : after { loaded [0x07000000] with live := abc }
    (fun t => t.digest = some abcDigest ∧ t.live = abc ∧ t.pc = 1 ∧ t.status = 0x00000032) = true := by decide +kernel

/-- V13, R168 case 4: 63 bytes, two blocks. -/
theorem test_final_two_blocks :
    after { loaded [0x07000000] with live := { h := iv, buf := List.replicate 63 0x61, count := 63 } }
      (fun t => t.digest = some #v[0x7d3e74a0, 0x5d7db15b, 0xce4ad9ec, 0x0658ea98, 0xe3f06eee, 0xcf16b4c6,
        0xfff2da45, 0x7ddc2f34]) = true := by decide +kernel

/-- 44 R181, example. -/
theorem test_save : after { loaded [0x08000001] with live := abc }
    (fun t => t.slots = #v[none, some abc, none, none] ∧ t.live = abc ∧ t.status = 0x00020030) = true := by
  decide +kernel

/-- 44 R182: the slot's copy comes back and the slot keeps it. -/
theorem test_restore : after { loaded [0x09000003] with slots := #v[none, none, none, some abc] }
    (fun t => t.live = abc ∧ t.slots = #v[none, none, none, some abc] ∧ t.pc = 1) = true := by decide +kernel

/-- V48. -/
theorem test_restore_empty : after (loaded [0x09000003])
    (fun t => t.cause = 4 ∧ t.fcmd = 0x09000003 ∧ t.status = 0x00004009 ∧ t.live = Hasher.initial) = true := by
  decide +kernel

/-- V58: a data word taken for a command. -/
theorem test_illegal_mid_stream : after { loaded [0x02000003, 0x61626300, 0x64656600] with live := abc, pc := 2 }
    (fun t => t.cause = 1 ∧ t.fcmd = 0x64656600 ∧ t.fpc = 2 ∧ t.pc = 2 ∧ t.status = 0x00001031) = true := by
  decide +kernel

/-- V56, V57, 60 R206, 10 R29: waiting, illegal without its words, halted, ended. -/
theorem test_no_step :
    stopped (loaded [0x02000005, 0x61626364]) = some .awaitingWords ∧
    after (loaded [0x05000001]) (fun t => t.cause = 1) = true ∧
    stopped ((loaded [0x01000000]).raise .illegalCommand 0) = some .halted ∧
    stopped (loaded []) = some .runEnded := by decide +kernel

/-- `MemRead` is legal only for whole words: a misaligned or narrower read gives nothing (00 R12). -/
theorem test_mem_read : (loaded [7, 9]).memRead 4 4 = some 9 ∧ (loaded [7, 9]).memRead 2 4 = none ∧
    (loaded [7, 9]).memRead 4 2 = none ∧ (loaded [7, 9]).memRead 8 4 = none := by decide

/-- 10 R22: buffer word 0 of a full word of buffered bytes. -/
theorem test_buffer_word : Hasher.bufWord { abc with buf := [0x61, 0x62, 0x63, 0x64, 0x65] } 0 = some 0x61626364 := by
  decide

/-! ### The host's view and the assembler -/

/-- 20 R55: only whole aligned words. -/
theorem test_host_narrow : (match hostAccess 0x0E 4 (loaded []), hostAccess 0x0C 2 (loaded []) with
    | .refused .narrowHostRead, .refused .narrowHostRead => true
    | _, _ => false) = true := by decide

/-- P1 and the pseudo-commands of R82. -/
theorem test_assemble :
    (assembleProgram ["INIT".toList, "ABSORB \"abc\" ; text".toList, "FINAL".toList]).toOption
      = some [0x01000000, 0x02000003, 0x61626300, 0x07000000] ∧
    (assembleLine "HASH x\"61\", 2 * 0x62, 99".toList).toOption
      = some [0x01000000, 0x02000004, 0x61626263, 0x07000000] ∧
    (assembleLine "CLONE 0, 3".toList).toOption = some [0x09000000, 0x08000003] ∧
    (assembleLine "NOP".toList).toOption = some [0x02000000] ∧
    (assembleLine "EXPORT".toList).toOption = some [0x03000000] := by decide +kernel

/-- What the assembler rejects, and an unaligned import length it does not (R81). -/
theorem test_assemble_rejects :
    (assembleLine "SAVE 4".toList).toOption = none ∧
    (assembleLine "IMPORTM 0x10000000000000000".toList).toOption = none ∧
    (assembleLine "IMPORTM 63".toList).toOption = some [0x05000000, 0, 63] := by decide +kernel

/-! ### Witnesses: for each statement with hypotheses, a concrete input that meets them -/

/-- The stream of 64 zero bytes and the operands of the import of its midstate. -/
def zeroMidWords : List Word :=
  [0, 64, 0xda5698be, 0x17b9b469, 0x62335799, 0x779fbeca, 0x8ce5d491, 0xc0d26243, 0xbafef9ea, 0x1837a9d8]

/-- A good state under another stream and `pc`. -/
theorem inv_loaded (ws : List Word) (st : Hasher) (h : st.Good) : State.Inv { loaded ws with live := st } where
  live := h
  slots := fun i st' h' => by
    match i, h' with
    | ⟨0, _⟩, h' => cases h'
    | ⟨1, _⟩, h' => cases h'
    | ⟨2, _⟩, h' => cases h'
    | ⟨3, _⟩, h' => cases h'
  noFault := fun _ => ⟨rfl, rfl, rfl⟩
  recorded := fun h' => by cases h'
  pcInStream := Nat.zero_le _

/-- The last data byte of the last word. -/
theorem witness_InlineDataPlacement : ∃ (len : BitVec 24) (ws : List Word) (j : Nat) (w : Word),
    ws.length = dataWords len ∧ j < len.toNat ∧ ws[j / 4]? = some w :=
  ⟨5, [0x61626364, 0x65000000], 4, 0x65000000, by decide⟩

/-- One word for each clause, with the operand at the top of its range. -/
theorem witness_DecodeFollowsFormats :
    (0x01000000 : Word).toNat / 2 ^ 24 = 1 ∧ (0x02FFFFFF : Word).toNat / 2 ^ 24 = 2 ∧
    (0x03FFFFFF : Word).toNat / 2 ^ 24 = 3 ∧ (0x04000000 : Word).toNat / 2 ^ 24 = 4 ∧
    (0x05000001 : Word).toNat / 2 ^ 24 = 5 ∧ (0x06FFFFFF : Word).toNat / 2 ^ 24 = 6 ∧
    (0x07000000 : Word).toNat / 2 ^ 24 = 7 ∧ (0x08000003 : Word).toNat / 2 ^ 24 = 8 ∧
    (0x09000004 : Word).toNat / 2 ^ 24 = 9 ∧ (0x00FFFFFF : Word).toNat / 2 ^ 24 = 0 ∧
    10 ≤ (0x0A000000 : Word).toNat / 2 ^ 24 := by decide

theorem witness_DecodeAgreesWithOpcodeTable :
    decode 0x09000003 = .ok (.restore 3) ∧
    ∃ r ∈ opcodeTable, r.selects 0x09000003 = true ∧ r.hasSlot = true := by decide

theorem witness_DecodeOfEncode : Instr.wf (.save 3) = true ∧ Instr.wf (.prime 0xFFFFFF) = true := by decide

theorem witness_EncodeOfDecode : decode 0x02FFFFFF = .ok (.absorb 0xFFFFFF) := by decide

theorem witness_AssembledDataIsDelivered : ([0x61, 0x62, 0x63] : List Byte).length ≤ 2 ^ 24 - 1 := by decide

/-- The first and the last clause at the ends of their ranges: `i = 15`, `t = 16`, `t = 63`. -/
theorem witness_ScheduleRecurrence : ∃ blk : List Byte, blk.length = 64 ∧
    (∃ b0 b1 b2 b3, blk[60]? = some b0 ∧ blk[61]? = some b1 ∧ blk[62]? = some b2 ∧ blk[63]? = some b3) ∧
    (∀ t ∈ [16, 63], ((schedule blk)[t - 2]?).isSome ∧ ((schedule blk)[t - 7]?).isSome ∧
      ((schedule blk)[t - 15]?).isSome ∧ ((schedule blk)[t - 16]?).isSome) :=
  ⟨List.replicate 64 0, by decide, ⟨0, 0, 0, 0, by decide⟩, by decide +kernel⟩

theorem witness_CompressRunsTheRounds : ∃ (blk : List Byte) (K W : Word), blk.length = 64 ∧
    roundConstants[63]? = some K ∧ (schedule blk)[63]? = some W :=
  ⟨List.replicate 64 0, 0xc67178f2, 0, by decide +kernel⟩

/-- The largest counter, and both sides of the one-block boundary. -/
theorem witness_PaddingLayout :
    (0x1FFFFFFFFFFFFFFF : Count).toNat ≤ 2 ^ 61 - 1 ∧ (55 : Count).toNat % 64 ≤ 55 ∧ 56 ≤ (56 : Count).toNat % 64 := by
  decide

/-- Up to the largest counter. -/
theorem witness_AbsorbKeepsLengthInvariant : ∃ (st : Hasher) (D : List Byte), st.buf.length = st.count.toNat % 64 ∧
    st.count.toNat + D.length = 2 ^ 61 - 1 ∧ st.count.toNat + D.length ≤ 2 ^ 61 - 1 :=
  ⟨{ h := iv, buf := List.replicate 62 0, count := 0x1FFFFFFFFFFFFFFE }, [0x61], by decide⟩

theorem witness_AbsorbSplitsAnywhere : ∃ (st : Hasher) (A B : List Byte), st.buf.length = st.count.toNat % 64 ∧
    st.count.toNat + A.length + B.length ≤ 2 ^ 61 - 1 ∧ A ≠ [] ∧ B ≠ [] :=
  ⟨abc, [0x64], [0x65], by decide⟩

/-- A partial block that the input completes. -/
theorem witness_FourStepAbsorbIsAbsorb : ∃ (st : Hasher) (D : List Byte), st.buf.length = st.count.toNat % 64 ∧
    st.count.toNat + D.length ≤ 2 ^ 61 - 1 ∧ st.buf ≠ [] ∧ 64 ≤ st.buf.length + D.length :=
  ⟨abc, List.replicate 61 0, by decide⟩

theorem abc_holds : abc.Holds [0x61, 0x62, 0x63] := ⟨by decide, by decide, by decide⟩

theorem witness_AbsorbExtendsTheMessage : ∃ (st : Hasher) (m D : List Byte), st.Holds m ∧
    m.length + D.length ≤ 2 ^ 61 - 1 ∧ D ≠ [] :=
  ⟨abc, [0x61, 0x62, 0x63], [0x64], abc_holds, by decide⟩

theorem witness_FinalGivesSha256 :
    (∃ (s : State) (w : Word) (m : List Byte), s.CommandAt w [] ∧ s.live.Holds m ∧ m.length ≤ 2 ^ 61 - 1) ∧
    (∃ (L : Count) (S : List Byte), L.toNat % 64 = 0 ∧ L.toNat + S.length = 2 ^ 61 - 1) :=
  ⟨⟨{ loaded [0x07000000] with live := abc }, 0x07000000, [0x61, 0x62, 0x63], ⟨[], rfl⟩, abc_holds, by decide⟩,
    ⟨0x1FFFFFFFFFFFFFC0, List.replicate 63 0, by decide⟩⟩

/-- The prefix of 64 zero bytes, its midstate given in-line (V20), and a suffix. -/
theorem witness_ImportEqualsAbsorbedPrefix :
    ∃ (s : State) (w : Word) (ws : List Word) (P S : List Byte) (L : Count) (h : Words8),
      P.length % 64 = 0 ∧ P.length ≤ 2 ^ 61 - 1 ∧ h = (Hasher.initial.absorb P).h ∧ L = BitVec.ofNat 64 P.length ∧
      s.CommandAt w ws ∧ importiOperands ws = some (L, h) ∧ P.length + S.length ≤ 2 ^ 61 - 1 :=
  ⟨loaded (0x04000000 :: zeroMidWords), 0x04000000, zeroMidWords, List.replicate 64 0, [0x61], 64, zeroMid,
    by decide, by decide, by decide +kernel, by decide, ⟨[], rfl⟩, by decide, by decide⟩

theorem witness_FinalThenMoreData :
    ∃ (s t u : State) (w w₁ w₂ : Word) (ds : List Word) (m : List Byte) (len : BitVec 24),
      s.live.Holds m ∧ m.length + len.toNat ≤ 2 ^ 61 - 1 ∧ ds.length = dataWords len ∧
      s.CommandAt w [] ∧ exec .final s = .next t ∧ t.CommandAt w₁ ds ∧ exec (.absorb len) t = .next u ∧
      u.CommandAt w₂ [] := by
  let s : State := { loaded [0x07000000, 0x02000003, 0x64656600, 0x07000000] with live := abc }
  let t : State := (s.setDigest s.live.finalDigest).advance 0
  let u : State := (t.setLive (t.live.absorb (inlineData 3 [0x64656600]))).advance 1
  exact ⟨s, t, u, 0x07000000, 0x02000003, 0x07000000, [0x64656600], [0x61, 0x62, 0x63], 3, abc_holds, by decide,
    by decide, ⟨[0x02000003, 0x64656600, 0x07000000], rfl⟩, rfl, ⟨[0x07000000], rfl⟩, rfl, ⟨[], rfl⟩⟩

theorem witness_InitResult : ∃ (s : State) (w : Word), s.CommandAt w [] :=
  ⟨loaded [0x01000000], 0x01000000, [], rfl⟩

/-- Just inside the bound, and one byte beyond it. -/
theorem witness_AbsorbResult : ∀ n ∈ [0x1FFFFFFFFFFFFFFE, 0x1FFFFFFFFFFFFFFF],
    ∃ (s : State) (w : Word) (ws : List Word) (len : BitVec 24), s.CommandAt w ws ∧
      ws.length = (len.toNat + 3) / 4 ∧ s.live.count.toNat = n ∧ len.toNat = 1 := by
  intro n hn
  refine ⟨{ loaded [0x02000001, 0] with live := { abc with count := BitVec.ofNat 64 n } }, 0x02000001, [0], 1,
    ⟨[], rfl⟩, by decide, ?_, by decide⟩
  simp only [List.mem_cons, List.not_mem_nil, or_false] at hn
  rcases hn with rfl | rfl <;> decide

theorem witness_ZeroLengthAbsorb : ∃ (s : State) (w : Word), s.Inv ∧ s.CommandAt w [] :=
  ⟨{ loaded [0x02000000] with live := abc }, 0x02000000, inv_loaded _ _ (by decide), [], rfl⟩

/-- Aligned at the end (63 + 1), unaligned at the end (62 + 1), and one byte beyond the bound. -/
theorem witness_AbsorbxResult : ∀ n ∈ [63, 62, 0x1FFFFFFFFFFFFFFF],
    ∃ (s : State) (w : Word) (ws : List Word) (len : BitVec 24), s.CommandAt w ws ∧
      ws.length = (len.toNat + 3) / 4 ∧ s.live.count.toNat = n ∧ len.toNat = 1 := by
  intro n hn
  refine ⟨{ loaded [0x03000001, 0] with live := { abc with count := BitVec.ofNat 64 n } }, 0x03000001, [0], 1,
    ⟨[], rfl⟩, by decide, ?_, by decide⟩
  simp only [List.mem_cons, List.not_mem_nil, or_false] at hn
  rcases hn with rfl | rfl | rfl <;> decide

/-- `PRIME "abc"`, and an engine that runs `INIT ; ABSORBX "abc"`. -/
theorem witness_PrimeResult : ∃ (s : State) (w : Word) (ws : List Word) (len : BitVec 24) (t t₁ : State) (v v₁ : Word),
    s.CommandAt w ws ∧ ws.length = (len.toNat + 3) / 4 ∧
    t.CommandAt v [] ∧ exec .init t = .next t₁ ∧ t₁.CommandAt v₁ ws :=
  ⟨loaded [0x06000003, 0x61626300], 0x06000003, [0x61626300], 3, loaded [0x01000000, 0x03000003, 0x61626300],
    ((loaded [0x01000000, 0x03000003, 0x61626300]).setLive Hasher.initial).advance 0, 0x01000000, 0x03000003,
    ⟨[], rfl⟩, by decide, ⟨[0x03000003, 0x61626300], rfl⟩, rfl, ⟨[], rfl⟩⟩

/-- Unaligned (63 and 65), too long (2^61), and the largest legal length (2^61 − 64). -/
theorem witness_ImportiResult : ∀ p ∈ ([(0, 63), (0, 65), (0x20000000, 0), (0x1FFFFFFF, 0xFFFFFFC0)] : List (Word × Word)),
    (∃ s : State, s.CommandAt 0x04000000 (p.1 :: p.2 :: ivWords)) ∧
    (let L := p.1.toNat * 2 ^ 32 + p.2.toNat
     L % 64 ≠ 0 ∨ (L % 64 = 0 ∧ 2 ^ 61 - 1 < L) ∨ (L % 64 = 0 ∧ L = 2 ^ 61 - 64)) := by
  intro p hp
  refine ⟨⟨loaded (0x04000000 :: p.1 :: p.2 :: ivWords), [], rfl⟩, ?_⟩
  simp only [List.mem_cons, List.not_mem_nil, or_false] at hp
  rcases hp with rfl | rfl | rfl | rfl <;> decide

/-- No snapshot; a snapshot with the three kinds of length. -/
theorem witness_ImportmResult : ∀ m ∈ ([none, some iv] : List (Option Words8)),
    ∀ p ∈ ([(0, 63), (0x20000000, 0), (0x1FFFFFFF, 0xFFFFFFC0)] : List (Word × Word)),
      ∃ s : State, s.CommandAt 0x05000000 [p.1, p.2] ∧ s.mid = m :=
  fun m _ p _ => ⟨{ loaded [0x05000000, p.1, p.2] with mid := m }, ⟨[], rfl⟩, rfl⟩

theorem witness_FinalResult : ∃ (s : State) (w : Word), s.CommandAt w [] :=
  ⟨loaded [0x07000000], 0x07000000, [], rfl⟩

/-- The first and the last slot. -/
theorem witness_SaveResult : ∀ i : Fin 4, ∃ (s : State) (w : Word) (slot : BitVec 8), s.CommandAt w [] ∧
    slot.toNat = i.val := fun i =>
  ⟨loaded [0x08000000], 0x08000000, BitVec.ofNat 8 i.val, ⟨[], rfl⟩, by revert i; decide⟩

/-- An empty slot and a full one. -/
theorem witness_RestoreResult : ∃ (s : State) (w : Word) (slot slot' : BitVec 8) (i j : Fin 4) (st : Hasher),
    s.CommandAt w [] ∧ slot.toNat = i.val ∧ s.slots[i] = none ∧ slot'.toNat = j.val ∧ s.slots[j] = some st :=
  ⟨{ loaded [0x09000000] with slots := #v[none, none, none, some abc] }, 0x09000000, 0, 3, 0, 3, abc,
    ⟨[], rfl⟩, by decide, rfl, by decide, rfl⟩

theorem witness_StepRunsTheDecodedCommand : ∃ (s : State) (w : Word) (i : Instr), s.fault = false ∧
    s.stream[s.pc]? = some w ∧ decode w = .ok i :=
  ⟨loaded [0x01000000], 0x01000000, .init, by decide⟩

/-- One word for each way of being illegal, at the edge of each range. -/
theorem witness_IllegalWordFaults : ∀ w ∈ ([0x00000000, 0x0A000000, 0xFFFFFFFF, 0x01000001, 0x07800000, 0x04000100,
      0x05000001, 0x08000100, 0x09FFFF00, 0x08000004, 0x090000FF] : List Word),
    ∃ s : State, s.fault = false ∧ s.stream[s.pc]? = some w ∧
      (let op := w.toNat / 2 ^ 24
       let low := w.toNat % 2 ^ 24
       op = 0 ∨ 10 ≤ op ∨ ((op = 1 ∨ op = 7 ∨ op = 4 ∨ op = 5) ∧ low ≠ 0) ∨
        ((op = 8 ∨ op = 9) ∧ (low / 2 ^ 8 ≠ 0 ∨ 4 ≤ low % 2 ^ 8))) := by
  intro w hw
  refine ⟨loaded [w], rfl, rfl, ?_⟩
  simp only [List.mem_cons, List.not_mem_nil, or_false] at hw
  rcases hw with rfl | rfl | rfl | rfl | rfl | rfl | rfl | rfl | rfl | rfl | rfl <;> decide

/-- Good states of all four kinds: waiting, ended, with a next step, halted. -/
theorem witness_NoStepExactlyWhen :
    (∃ s : State, s.Inv ∧ s.Waiting) ∧ (∃ s : State, s.Inv ∧ s.Ended) ∧
    (∃ s : State, s.Inv ∧ (stepped s).isSome = true) ∧ (∃ s : State, s.Inv ∧ s.fault = true) := by
  have good (ws : List Word) : (loaded ws).Inv := inv_loaded ws Hasher.initial (by decide)
  have h := good [0]
  exact ⟨⟨loaded [0x05000000], good _, rfl, 0x05000000, .importm, by decide⟩, ⟨loaded [], good _, by decide⟩,
    ⟨loaded [0x01000000], good _, by decide⟩,
    ⟨(loaded [0]).raise .illegalCommand 0,
      { live := h.live, slots := h.slots, noFault := nofun,
        recorded := fun _ => ⟨⟨.illegalCommand, rfl⟩, rfl, rfl⟩, pcInStream := h.pcInStream }, rfl⟩⟩

/-- One step for each of the four faults. -/
theorem witness_FaultsArePrecise : ∀ c ∈ ([1, 2, 3, 4] : List (BitVec 4)),
    ∃ s t : State, step s = .next t ∧ t.fault = true ∧ t.cause = c := by
  intro c hc
  simp only [List.mem_cons, List.not_mem_nil, or_false] at hc
  rcases hc with rfl | rfl | rfl | rfl
  · exact ⟨loaded [0], _, step_get (loaded [0]) (by decide), by decide, by decide⟩
  · exact ⟨loaded ([0x04000000, 0, 63] ++ ivWords), _, step_get _ (by decide), by decide, by decide⟩
  · exact ⟨loaded ([0x04000000, 0x20000000, 0] ++ ivWords), _, step_get _ (by decide), by decide, by decide⟩
  · exact ⟨loaded [0x09000000], _, step_get _ (by decide), by decide, by decide⟩

/-- The second rows of the table: an absorb beyond the bound, and an import without a snapshot. -/
theorem witness_WhoRaisesWhichFault :
    (∃ s t : State, step s = .next t ∧ t.fault = true ∧ t.cause = 3 ∧ t.fcmd = 0x02000001) ∧
    (∃ s t : State, step s = .next t ∧ t.fault = true ∧ t.cause = 4 ∧ t.fcmd = 0x05000000) :=
  ⟨⟨{ loaded [0x02000001, 0] with live := { abc with count := 0x1FFFFFFFFFFFFFFF } }, _, step_get _ (by decide),
      by decide, by decide, by decide⟩,
    ⟨loaded [0x05000000, 0, 64], _, step_get _ (by decide), by decide, by decide, by decide⟩⟩

/-- A command that completes and one that faults. -/
theorem witness_ProgramCounterRule :
    (∃ (s t : State) (i : Instr), s.fault = false ∧ exec i s = .next t ∧ t.fault = false) ∧
    (∃ (s t : State) (i : Instr), s.fault = false ∧ exec i s = .next t ∧ t.fault = true) :=
  ⟨⟨loaded [0x01000000], _, .init, rfl, ran_get _ _ (by decide), by decide⟩,
    ⟨loaded [0x09000000], _, .restore 0, rfl, ran_get _ _ (by decide), by decide⟩⟩

theorem witness_AtMostOneStepPerWord :
    (∃ (s t : State) (w : Word) (i : Instr), s.stream[s.pc]? = some w ∧ decode w = .ok i ∧ step s = .next t ∧
      t.fault = false) ∧ ∃ s : State, s.pc = s.stream.length :=
  ⟨⟨loaded [0x01000000], _, 0x01000000, .init, by decide, by decide, step_get _ (by decide), by decide⟩,
    ⟨loaded [], by decide⟩⟩

/-- Every command the statement names gives a next state somewhere. -/
theorem witness_FrameOfLiveCommands :
    ∀ p ∈ ([(.init, loaded [0x01000000]), (.absorb 1, loaded [0x02000001, 0]),
        (.importi, loaded ([0x04000000, 0, 64] ++ ivWords)),
        (.importm, { loaded [0x05000000, 0, 64] with mid := some iv }),
        (.restore 0, { loaded [0x09000000] with slots := #v[some abc, none, none, none] })] : List (Instr × State)),
      ∃ t, exec p.1 p.2 = .next t ∧ t.fault = false := by
  have key : ∀ p ∈ ([(.init, loaded [0x01000000]), (.absorb 1, loaded [0x02000001, 0]),
        (.importi, loaded ([0x04000000, 0, 64] ++ ivWords)),
        (.importm, { loaded [0x05000000, 0, 64] with mid := some iv }),
        (.restore 0, { loaded [0x09000000] with slots := #v[some abc, none, none, none] })] : List (Instr × State)),
      ((ran p.1 p.2).map State.fault) = some false := by decide +kernel
  intro p hp
  have h := key p hp
  have hs : (ran p.1 p.2).isSome = true := by cases hr : ran p.1 p.2 <;> simp_all
  refine ⟨_, ran_get _ _ hs, ?_⟩
  rw [← Option.some_get hs] at h
  exact Option.some.inj h

theorem witness_FrameOfExportCommands :
    (∃ (s t : State) (len : BitVec 24), exec (.absorbx len) s = .next t ∧ t.fault = false) ∧
    (∃ (s t : State) (len : BitVec 24), exec (.prime len) s = .next t ∧ t.fault = false) :=
  ⟨⟨loaded [0x03000000], _, 0, ran_get _ _ (by decide), by decide⟩,
    ⟨loaded [0x06000000], _, 0, ran_get _ _ (by decide), by decide⟩⟩

theorem witness_FrameOfFinalAndSave :
    (∃ s t : State, exec .final s = .next t) ∧
    (∃ (s t : State) (slot : BitVec 8), slotLegal slot = true ∧ exec (.save slot) s = .next t) :=
  ⟨⟨loaded [0x07000000], ((loaded [0x07000000]).setDigest (loaded [0x07000000]).live.finalDigest).advance 0, rfl⟩,
    ⟨loaded [0x08000003], _, 3, by decide, ran_get _ _ (by decide)⟩⟩

theorem witness_MidIsWrittenOnlyByExports : ∃ s t : State, step s = .next t ∧ t.mid ≠ s.mid :=
  ⟨loaded [0x06000000], _, step_get _ (by decide), by decide⟩

theorem witness_DigestIsWrittenOnlyByFinal : ∃ s t : State, step s = .next t ∧ t.digest ≠ s.digest :=
  ⟨loaded [0x07000000], _, step_get _ (by decide +kernel), by decide +kernel⟩

theorem witness_SlotIsWrittenOnlyBySave : ∃ (s t : State) (j : Fin 4), step s = .next t ∧ t.slots[j] ≠ s.slots[j] :=
  ⟨loaded [0x08000003], _, 3, step_get _ (by decide), by decide⟩

theorem witness_LiveIsWrittenOnlyBy : ∃ s t : State, step s = .next t ∧ t.live ≠ s.live :=
  ⟨loaded [0x02000003, 0x61626300], _, step_get _ (by decide), by decide⟩

theorem witness_StreamIsNeverWritten : ∃ s t : State, step s = .next t ∧ t.pc = 2 :=
  ⟨loaded [0x02000003, 0x61626300], _, step_get _ (by decide), by decide⟩

/-- A state that holds a digest. -/
theorem witness_DigestInfluencesNoStep : ∃ s t : State, step s = .next t ∧ s.digest = some abcDigest :=
  ⟨{ loaded [0x02000003, 0x61626300] with digest := some abcDigest }, _, step_get _ (by decide), by decide⟩

/-- A good state with a next step. -/
theorem witness_StepKeepsInvariant : ∃ s t : State, s.Inv ∧ step s = .next t :=
  ⟨loaded [0x02000003, 0x61626300], _, inv_loaded [0x02000003, 0x61626300] Hasher.initial (by decide),
    step_get _ (by decide)⟩

/-- Slot 3 holds "abc", an `ABSORB` of one byte runs, and a `RESTORE` stands next. -/
theorem witness_SlotsAreIndependent : ∃ (s t : State) (w : Word) (slot : BitVec 8) (j : Fin 4) (st : Hasher),
    slot.toNat = j.val ∧ s.slots[j] = some st ∧ RunsTo (fun i => i ≠ .save slot) s t ∧ t.CommandAt w [] ∧
      t.live ≠ s.live := by
  let s : State := { loaded [0x02000001, 0x64000000, 0x09000003] with slots := #v[none, none, none, some abc] }
  let t : State := (s.setLive (s.live.absorb (inlineData 1 [0x64000000]))).advance 1
  refine ⟨s, t, 0x09000003, 3, 3, abc, by decide, rfl, .step s t t rfl ?_ (.refl t), ⟨[], rfl⟩, by decide⟩
  intro w i hw hd
  obtain rfl : w = 0x02000001 := by cases hw; rfl
  have : decode 0x02000001 = .ok (.absorb 1) := by decide
  rw [this] at hd; cases hd; decide

/-- `MID` holds a snapshot, an `ABSORB` of one byte runs, and an `IMPORTM` of a legal length stands next. -/
theorem witness_SnapshotIsImmutable : ∃ (s t : State) (w hi lo : Word) (words : Words8), s.mid = some words ∧
    RunsTo (fun i => ∀ len, i ≠ .absorbx len ∧ i ≠ .prime len) s t ∧ t.CommandAt w [hi, lo] ∧
    (hi.toNat * 2 ^ 32 + lo.toNat) % 64 = 0 ∧ hi.toNat * 2 ^ 32 + lo.toNat ≤ 2 ^ 61 - 1 ∧ t.live ≠ s.live := by
  let s : State := { loaded [0x02000001, 0x64000000, 0x05000000, 0, 64] with mid := some zeroMid }
  let t : State := (s.setLive (s.live.absorb (inlineData 1 [0x64000000]))).advance 1
  refine ⟨s, t, 0x05000000, 0, 64, zeroMid, rfl, .step s t t rfl ?_ (.refl t), ⟨[], rfl⟩, by decide, by decide, by decide⟩
  intro w i hw hd
  obtain rfl : w = 0x02000001 := by cases hw; rfl
  have : decode 0x02000001 = .ok (.absorb 1) := by decide
  rw [this] at hd; cases hd
  exact fun len => ⟨by simp, by simp⟩

/-- A state two steps from reset. -/
theorem witness_ReachableStatesMeetInvariant : ∃ s : State, Reachable s ∧ s.pc = 2 :=
  ⟨_, .step _ _ (.reset 0 [0x02000003, 0x61626300])
    (step_get { State.reset with stream := [0x02000003, 0x61626300], draws := 0 } (by decide)), by decide⟩

/-- A digest and a snapshot to read, and the two unmapped offsets inside the map. -/
theorem witness_HostRegisterMap :
    (∃ (s : State) (d m : Words8), s.digest = some d ∧ s.mid = some m) ∧
    ∀ offset ∈ [0x18, 0x1C, 0x60, 0x01], offset ∉ [0x00, 0x04, 0x08, 0x0C, 0x10, 0x14] ∧
      offset ∉ (List.range 16).map (0x20 + 4 * ·) :=
  ⟨⟨{ loaded [] with digest := some abcDigest, mid := some zeroMid }, abcDigest, zeroMid, rfl, rfl⟩, by decide⟩

/-- Another accumulator and another slot content behind the same counter and valid bits. -/
theorem witness_HostSeesNoHasherState : ∃ (s : State) (st : Hasher) (slots : Vector (Option Hasher) 4),
    st.count = s.live.count ∧ (∀ j : Fin 4, (slots[j]).isSome = (s.slots[j]).isSome) ∧ st ≠ s.live ∧ slots ≠ s.slots :=
  ⟨{ loaded [] with slots := #v[none, some abc, none, none] }, { h := zeroMid, buf := [], count := 0 },
    #v[none, some Hasher.initial, none, none], by decide⟩

theorem witness_UnspecifiedReadsAreFreshDraws : ∃ s : State, s.digest = none ∧ s.mid = none := ⟨loaded [], rfl, rfl⟩

/-- Both sides of the one-block boundary, and the largest counter, reached by one byte and held with none. The words at `pc`
are those that `ABSORB`, `ABSORBX` and `PRIME` with that `LEN`, and `FINAL`, take. -/
theorem witness_CompressCallCounts : ∀ n ∈ [55, 56, 2 ^ 61 - 2, 2 ^ 61 - 1],
    ∃ (s : State) (w : Word) (ws : List Word) (len : BitVec 24), s.live.buf.length = s.live.count.toNat % 64 ∧
      s.live.count.toNat = n ∧ s.CommandAt w ws ∧ ws.length = dataWords len ∧ s.CommandAt w [] ∧
      (len.toNat = 1 ∨ n = 2 ^ 61 - 1) ∧ s.live.count.toNat + len.toNat ≤ 2 ^ 61 - 1 := by
  intro n hn
  let s (ws : List Word) : State :=
    { loaded ws with live := { h := iv, buf := List.replicate (n % 64) 0, count := BitVec.ofNat 64 n } }
  by_cases h : n = 2 ^ 61 - 1
  · refine ⟨s [0x02000000], 0x02000000, [], 0, ?_, ?_, ⟨[], rfl⟩, by decide, ⟨[], rfl⟩, .inr h, ?_⟩ <;> subst h <;> decide
  · refine ⟨s [0x02000001, 0], 0x02000001, [0], 1, ?_, ?_, ⟨[], rfl⟩, by decide, ⟨[0], rfl⟩, .inl rfl, ?_⟩
    all_goals
      simp only [List.mem_cons, List.not_mem_nil, or_false, h] at hn
      rcases hn with rfl | rfl | rfl <;> decide

/-- The words of the commands that make no call, `IMPORTI` with its ten in-line words, run to a next state that did not fault. -/
theorem witness_CompressCallCounts_zero :
    (nextOf (exec .init (loaded [0x01000000]))).map (·.fault) = some false ∧
    (loaded (0x04000000 :: zeroMidWords)).CommandAt 0x04000000 zeroMidWords ∧ zeroMidWords.length = 10 ∧
    (nextOf (exec .importi (loaded (0x04000000 :: zeroMidWords)))).map (·.fault) = some false ∧
    (nextOf (exec .importm { loaded [0x05000000, 0, 64] with mid := some zeroMid })).map (·.fault) = some false ∧
    (nextOf (exec (.save 3) (loaded [0x08000003]))).map (·.fault) = some false ∧
    (nextOf (exec (.restore 3) { loaded [0x09000003] with slots := #v[none, none, none, some abc] })).map (·.fault)
      = some false :=
  ⟨by decide, ⟨[], rfl⟩, by decide, by decide, by decide, by decide, by decide⟩

end Sys2Proof.Tests
end

section
/-! PROOF. The big-endian conversions as numbers, and that `be32` and `bytes32` are inverse (spec/00_scope.md R10). -/

namespace Sys2Proof.Machine

/-- A bit field as a number; every byte of a conversion is read by it. -/
theorem extractLsb'_toNat_div {n : Nat} (v : BitVec n) (k len : Nat) :
    (v.extractLsb' k len).toNat = v.toNat / 2 ^ k % 2 ^ len := by
  rw [BitVec.extractLsb'_toNat, Nat.shiftRight_eq_div_pow]

theorem be32_toNat (b0 b1 b2 b3 : Byte) :
    (be32 b0 b1 b2 b3).toNat = b0.toNat * 2 ^ 24 + b1.toNat * 2 ^ 16 + b2.toNat * 2 ^ 8 + b3.toNat := by
  simp only [be32, Laws.EncodedForm.append_toNat]
  omega

@[simp] theorem bytes32_be32 (b0 b1 b2 b3 : Byte) : bytes32 (be32 b0 b1 b2 b3) = [b0, b1, b2, b3] := by
  have field (k : Nat) (b : Byte) (h : (be32 b0 b1 b2 b3).toNat / 2 ^ k % 2 ^ 8 = b.toNat) :
      (be32 b0 b1 b2 b3).extractLsb' k 8 = b :=
    BitVec.eq_of_toNat_eq ((extractLsb'_toNat_div _ _ _).trans h)
  rw [bytes32, field 24 b0, field 16 b1, field 8 b2, field 0 b3] <;> rw [be32_toNat] <;> omega

/-- The other direction: `be32` of the four bytes that `bytes32` lists. -/
theorem be32_extractLsb' (w : Word) :
    be32 (w.extractLsb' 24 8) (w.extractLsb' 16 8) (w.extractLsb' 8 8) (w.extractLsb' 0 8) = w := by
  apply BitVec.eq_of_toNat_eq
  simp only [be32_toNat, extractLsb'_toNat_div]
  omega

theorem be64bytes_map_toNat (v : BitVec 64) :
    (be64bytes v).map BitVec.toNat = [56, 48, 40, 32, 24, 16, 8, 0].map fun k => v.toNat / 2 ^ k % 2 ^ 8 := by
  simp only [be64bytes, List.map_cons, List.map_nil, extractLsb'_toNat_div]

/-- Settles O1: each conversion is its value as a number, from which the two inverses follow byte by byte. -/
theorem bigEndianConversions : Obligations.BigEndianConversions :=
  ⟨be32_toNat, bytes32_be32, fun w => ⟨_, _, _, _, rfl, be32_extractLsb' w⟩, be64bytes_map_toNat⟩

end Sys2Proof.Machine
end

section
/-! PROOF. The host's registers (spec/10_state.md R34, R35): what stands at each offset, and that a mapped read has no effect. -/

namespace Sys2Proof.Machine

@[simp] theorem hostWrite_eq (offset : Nat) (value : Word) (s : State) : hostWrite offset value s = s := rfl

/-- A read of a word the spec gives returns it and changes nothing. -/
theorem hostRead_of_some {offset : Nat} {s : State} {w : Word} (h : hostRegister offset s = some w) :
    hostRead offset s = (w, s) := by
  simp only [hostRead, h]

theorem hostRegister_digest (s : State) (i : Fin 8) : hostRegister (0x20 + 4 * i.val) s = s.digest.map (·[i]) := by
  fin_cases i <;> rfl

theorem hostRegister_mid (s : State) (i : Fin 8) : hostRegister (0x40 + 4 * i.val) s = s.mid.map (·[i]) := by
  fin_cases i <;> rfl

/-- Every offset that names no register reads 0: the other 22 cases of the map are offsets of the list. -/
theorem hostRegister_unmapped {offset : Nat} (s : State)
    (h : offset ∉ [0x00, 0x04, 0x08, 0x0C, 0x10, 0x14] ++ (List.range 16).map (0x20 + 4 * ·)) :
    hostRegister offset s = some 0 := by
  unfold hostRegister
  split
  case h_23 => rfl
  all_goals exact absurd (by decide) h

/-- `COUNT_HI` and `COUNT_LO` are the two halves of `COUNT` (R34). -/
theorem State.countHi_countLo (s : State) : s.countHi.toNat * 2 ^ 32 + s.countLo.toNat = s.live.count.toNat := by
  have hlt := s.live.count.isLt
  rw [State.countHi, State.countLo, extractLsb'_toNat_div, extractLsb'_toNat_div]
  omega

/-- Settles O55: each offset of the table answers with its register's word, every other one with 0. -/
theorem hostRegisterMap : Obligations.HostRegisterMap := by
  refine ⟨hostWrite_eq, fun s => ⟨hostRead_of_some rfl, hostRead_of_some rfl, hostRead_of_some rfl,
    hostRead_of_some rfl, ?count, ?digest, ?mid, ?unmapped⟩⟩
  case count => exact ⟨s.countHi, s.countLo, hostRead_of_some rfl, hostRead_of_some rfl, s.countHi_countLo⟩
  case digest =>
    intro d i hd
    apply hostRead_of_some
    rw [hostRegister_digest, hd, Option.map_some]
  case mid =>
    intro m i hm
    apply hostRead_of_some
    rw [hostRegister_mid, hm, Option.map_some]
  case unmapped =>
    intro offset hlow hwords
    exact hostRead_of_some (hostRegister_unmapped s (List.not_mem_append hlow hwords))

end Sys2Proof.Machine
end

section
/-! PROOF. The fields of `STATUS` (spec/10_state.md R32). -/

namespace Sys2Proof.Machine

/-- A bit of a word, given as a digit of its number; every flag of `STATUS` is read by it. -/
theorem getLsbD_eq_of_toNat_div {n k : Nat} {v : BitVec n} {b : Bool} (h : v.toNat / 2 ^ k % 2 = b.toNat) :
    v.getLsbD k = b := by
  have hbit : (v.getLsbD k).toNat = b.toNat := (Nat.toNat_testBit v.toNat k).trans h
  rw [← Bool.ofNat_toNat (v.getLsbD k), hbit, Bool.ofNat_toNat]

/-- R25: `FILL` is a residue of `BLK`, so it fits its six bits. -/
theorem Hasher.fill_lt (st : Hasher) : st.fill < 64 := Nat.mod_lt _ (by decide)

theorem State.slotValidBits_toNat (s : State) :
    s.slotValidBits.toNat = (s.slotValid 3).toNat * 2 ^ 3 + (s.slotValid 2).toNat * 2 ^ 2
      + (s.slotValid 1).toNat * 2 + (s.slotValid 0).toNat := by
  simp only [State.slotValidBits, Laws.EncodedForm.append_toNat, BitVec.toNat_ofBool]
  omega

theorem State.status_toNat (s : State) :
    s.status.toNat = s.slotValidBits.toNat * 2 ^ 16 + s.cause.toNat * 2 ^ 12 + s.live.fill * 2 ^ 4
      + s.live.aligned.toNat * 2 ^ 3 + s.mid.isSome.toNat * 2 ^ 2 + s.digest.isSome.toNat * 2 + s.fault.toNat := by
  have hfill : s.live.fill % 2 ^ 6 = s.live.fill := Nat.mod_eq_of_lt s.live.fill_lt
  simp only [State.status, Laws.EncodedForm.append_toNat, BitVec.toNat_ofBool, BitVec.toNat_ofNat, hfill,
    State.midValid, State.digestValid]
  omega

theorem State.slotValidBits_flags (s : State) :
    s.slotValidBits.getLsbD 0 = s.slotValid 0 ∧ s.slotValidBits.getLsbD 1 = s.slotValid 1 ∧
    s.slotValidBits.getLsbD 2 = s.slotValid 2 ∧ s.slotValidBits.getLsbD 3 = s.slotValid 3 := by
  have h0 := (s.slotValid 0).toNat_le
  have h1 := (s.slotValid 1).toNat_le
  have h2 := (s.slotValid 2).toNat_le
  have h3 := (s.slotValid 3).toNat_le
  refine ⟨?_, ?_, ?_, ?_⟩ <;> apply getLsbD_eq_of_toNat_div <;> rw [State.slotValidBits_toNat] <;> omega

/-- The four flags in the low bits of `STATUS`. -/
theorem State.status_flags (s : State) :
    s.status.getLsbD 0 = s.fault ∧ s.status.getLsbD 1 = s.digest.isSome ∧
    s.status.getLsbD 2 = s.mid.isSome ∧ s.status.getLsbD 3 = s.live.aligned := by
  have h0 := s.fault.toNat_le
  have h1 := s.digest.isSome.toNat_le
  have h2 := s.mid.isSome.toNat_le
  have h3 := s.live.aligned.toNat_le
  refine ⟨?_, ?_, ?_, ?_⟩ <;> apply getLsbD_eq_of_toNat_div <;> rw [State.status_toNat] <;> omega

/-- The fields of `STATUS` above the flags; the two reserved ones are zero. -/
theorem State.status_fields (s : State) :
    (s.status.extractLsb' 4 6).toNat = s.live.fill ∧ s.status.extractLsb' 10 2 = 0 ∧
    s.status.extractLsb' 12 4 = s.cause ∧ s.status.extractLsb' 16 4 = s.slotValidBits ∧
    s.status.extractLsb' 20 12 = 0 := by
  have h0 := s.fault.toNat_le
  have h1 := s.digest.isSome.toNat_le
  have h2 := s.mid.isSome.toNat_le
  have h3 := s.live.aligned.toNat_le
  have h4 := s.live.fill_lt
  have h12 := s.cause.isLt
  have h16 := s.slotValidBits.isLt
  simp only [← BitVec.toNat_inj, extractLsb'_toNat_div, State.status_toNat, BitVec.ofNat_eq_ofNat,
    BitVec.toNat_ofNat]
  omega

theorem State.status_slotValid (s : State) (j : Fin 4) : s.status.getLsbD (16 + j.val) = s.slots[j].isSome := by
  obtain ⟨_, _, _, hsv, _⟩ := s.status_fields
  obtain ⟨b0, b1, b2, b3⟩ := s.slotValidBits_flags
  have hbit : s.status.getLsbD (16 + j.val) = s.slotValidBits.getLsbD j.val := by
    rw [← hsv, BitVec.getLsbD_extractLsb', decide_eq_true j.isLt, Bool.true_and]
  rw [hbit]
  match j with
  | 0 => exact b0
  | 1 => exact b1
  | 2 => exact b2
  | 3 => exact b3

/-- Settles O54: the flags and fields of `STATUS` read off its value as a number. -/
theorem statusFields : Obligations.StatusFields := by
  refine ⟨by decide, fun s offset value => by rw [hostWrite_eq], fun s => ?_⟩
  obtain ⟨hfault, hdigest, hmid, haligned⟩ := s.status_flags
  obtain ⟨hfill, hlow, hcause, _, hhigh⟩ := s.status_fields
  exact ⟨hfault, hdigest, hmid, haligned ▸ s.live.aligned_iff, hfill, hlow, hcause, s.status_slotValid, hhigh⟩

end Sys2Proof.Machine
end

section
/-! PROOF. The program counter (spec/10_state.md R28), from what a meaning that answers a next state did. -/

namespace Sys2Proof.Machine

theorem Completed.pc_eq {i : Instr} {s t : State} {ws : List Word} (h : Completed i s ws t) :
    t.pc = s.pc + 1 + i.inlineWords := by
  obtain ⟨_, _, _, _, rfl, _⟩ := h.frame
  rfl

theorem Completed.fault_eq {i : Instr} {s t : State} {ws : List Word} (h : Completed i s ws t) :
    t.fault = s.fault := by
  obtain ⟨_, _, _, _, rfl, _⟩ := h.frame
  rfl

/-- `FPC` as a number (R33): a fault records `pc mod 2^32`. -/
theorem State.raise_fpc_toNat (s : State) (f : EngineFault) (w : Word) :
    (s.raise f w).fpc.toNat = s.pc % 2 ^ 32 := by
  rw [State.raise_fpc, BitVec.toNat_ofNat]

/-- Settles O37: a completed command keeps `FAULT = 0` and moves `pc`, a raised fault sets `FAULT` and keeps `pc`. -/
theorem programCounterRule : Obligations.ProgramCounterRule := by
  refine ⟨fun s t i hf h => ?_, fun s offset value => by rw [hostWrite_eq]⟩
  obtain ⟨w, ws, _, _, hd | ⟨f, _, rfl⟩⟩ := exec_next h
  · exact ⟨fun _ => hd.pc_eq, fun h1 => by simp [hd.fault_eq, hf] at h1⟩
  · exact ⟨fun h0 => by simp at h0, fun _ => ⟨State.raise_pc s f w, State.raise_fpc_toNat s f w⟩⟩

end Sys2Proof.Machine
end

section
/-! PROOF. In-line data (spec/20_memory.md R54): where each data byte lies, how many words carry the bytes, and what the
padding adds. -/

namespace Sys2Proof.Machine

theorem bytes32_getElem? (w : Word) {k : Nat} (hk : k < 4) :
    (bytes32 w)[k]? = some (w.extractLsb' (24 - 8 * k) 8) :=
  match k, hk with
  | 0, _ | 1, _ | 2, _ | 3, _ => rfl

/-- R56: byte `4i + k` of a word sequence is byte `k` of word `i`. -/
theorem wordBytes_getElem? {ws : List Word} {i k : Nat} {w : Word} (hk : k < 4) (hw : ws[i]? = some w) :
    (wordBytes ws)[4 * i + k]? = some (w.extractLsb' (24 - 8 * k) 8) := by
  induction ws generalizing i with
  | nil => simp at hw
  | cons v vs ih =>
    rw [wordBytes_cons]
    cases i with
    | zero =>
      obtain rfl : v = w := by simpa using hw
      rw [Nat.mul_zero, Nat.zero_add, List.getElem?_append_left (by simpa using hk), bytes32_getElem? v hk]
    | succ i =>
      have hindex : 4 * (i + 1) + k - (bytes32 v).length = 4 * i + k := by rw [bytes32_length]; omega
      rw [List.getElem?_append_right (by rw [bytes32_length]; omega), hindex]
      exact ih (by simpa using hw)

/-- R54: the data bytes lie where the bytes of the words do; those from `len` on are cut off. -/
theorem inlineData_getElem? {len j : Nat} {ws : List Word} {w : Word} (hj : j < len) (hw : ws[j / 4]? = some w) :
    (inlineData len ws)[j]? = some (w.extractLsb' (24 - 8 * (j % 4)) 8) := by
  rw [inlineData, List.getElem?_take_of_lt hj]
  simpa only [Nat.div_add_mod] using wordBytes_getElem? (Nat.mod_lt j (by decide)) hw

/-- R73: the in-line words are the fewest that hold the data bytes. -/
theorem dataWords_bounds (len : BitVec 24) :
    len.toNat ≤ 4 * dataWords len ∧ 4 * dataWords len < len.toNat + 4 := by
  rw [dataWords]
  omega

/-- Packing pads with zero bytes to the end of the last word: whole words of data pass unchanged, and the rest is one of
`packData`'s four ends. -/
theorem wordBytes_packData (D : List Byte) :
    ∃ k, k < 4 ∧ wordBytes (packData D) = D ++ List.replicate k 0 := by
  induction D using packData.induct with
  | case1 b0 b1 b2 b3 rest ih =>
    obtain ⟨k, hk, hrest⟩ := ih
    exact ⟨k, hk, by simp [packData, hrest]⟩
  | case2 => exact ⟨1, by decide, by simp [packData]⟩
  | case3 => exact ⟨2, by decide, by simp [packData]⟩
  | case4 => exact ⟨3, by decide, by simp [packData]⟩
  | case5 => exact ⟨0, by decide, by simp [packData]⟩

/-- Settles O2: a data byte is a byte of its word, and the words hold the data with fewer than four bytes to spare. -/
theorem inlineDataPlacement : Obligations.InlineDataPlacement :=
  ⟨fun _ _ hlen => ⟨inlineData_length_of_dataWords hlen, fun _ _ hj hw => inlineData_getElem? hj hw⟩,
    dataWords_bounds, wordBytes_packData⟩

end Sys2Proof.Machine
end

section
/-! PROOF. No step writes the command stream (spec/20_memory.md R53). -/

namespace Sys2Proof.Machine

theorem Completed.stream_eq {i : Instr} {s t : State} {ws : List Word} (h : Completed i s ws t) :
    t.stream = s.stream := by
  obtain ⟨_, _, _, _, rfl, _⟩ := h.frame
  rfl

/-- No meaning writes the stream, whether the command completes or faults. -/
theorem exec_stream_eq {i : Instr} {s t : State} (h : exec i s = .next t) : t.stream = s.stream := by
  obtain ⟨w, _, _, _, hd | ⟨f, _, rfl⟩⟩ := exec_next h
  · exact hd.stream_eq
  · exact State.raise_stream s f w

/-- Settles O46: a step raises a fault or runs a command, and neither writes the stream. -/
theorem streamIsNeverWritten : Obligations.StreamIsNeverWritten := by
  intro s t h
  obtain ⟨_, w, _, ⟨_, _, rfl⟩ | ⟨_, _, hx⟩⟩ := step_next h
  · exact State.raise_stream s .illegalCommand w
  · exact exec_stream_eq hx

end Sys2Proof.Machine
end

section
/-! PROOF. The message schedule (spec/40_compression.md R103, R104): a block word is the `be32` of its four bytes, an
extension keeps the words it starts from, and each word it adds is the next word after those before it. -/

namespace Sys2Proof.Machine

theorem wordsOfBytes_getElem? {bs : List Byte} {i : Nat} {b0 b1 b2 b3 : Byte} (h0 : bs[4 * i]? = some b0)
    (h1 : bs[4 * i + 1]? = some b1) (h2 : bs[4 * i + 2]? = some b2) (h3 : bs[4 * i + 3]? = some b3) :
    (wordsOfBytes bs)[i]? = some (be32 b0 b1 b2 b3) := by
  induction i generalizing bs with
  | zero =>
    match bs with
    | [] | [_] | [_, _] | [_, _, _] => simp at h3
    | _ :: _ :: _ :: _ :: rest => simp_all [wordsOfBytes]
  | succ i ih =>
    match bs with
    | [] | [_] | [_, _] | [_, _, _] => simp at h3
    | _ :: _ :: _ :: _ :: rest =>
      rw [wordsOfBytes, List.getElem?_cons_succ]
      exact ih h0 h1 h2 h3

theorem prefix_extendSchedule (n : Nat) (W : List Word) : W <+: extendSchedule n W := by
  induction n generalizing W with
  | zero => exact List.prefix_rfl
  | succ n ih => exact (List.prefix_append W [nextScheduleWord W]).trans (ih _)

/-- R104 for the words an extension adds: the word at `t` is the next one after the words before `t`. -/
theorem extendSchedule_getElem? {n t : Nat} {W : List Word} (hlow : W.length ≤ t) (hhigh : t < W.length + n) :
    (extendSchedule n W)[t]? = some (nextScheduleWord ((extendSchedule n W).take t)) := by
  induction n generalizing W with
  | zero => omega
  | succ n ih =>
    rcases Nat.eq_or_lt_of_le hlow with rfl | hlt
    · obtain ⟨V, hV⟩ := prefix_extendSchedule n (W ++ [nextScheduleWord W])
      simp [extendSchedule, ← hV]
    · exact ih (by simpa using hlt) (by simp; omega)

/-- The next word after the first `t` words of a list, by the four words the recurrence reads. -/
theorem nextScheduleWord_take {W : List Word} {t : Nat} {w2 w7 w15 w16 : Word} (ht : 16 ≤ t) (hW : t ≤ W.length)
    (h2 : W[t - 2]? = some w2) (h7 : W[t - 7]? = some w7) (h15 : W[t - 15]? = some w15)
    (h16 : W[t - 16]? = some w16) :
    nextScheduleWord (W.take t) = ssig1 w2 + w7 + ssig0 w15 + w16 := by
  have read {k : Nat} {w : Word} (hk : 0 < k) (h : W[t - k]? = some w) : (W.take t).getD (t - k) 0 = w := by
    rw [List.getD_eq_getElem?_getD, List.getElem?_take_of_lt (by omega), h, Option.getD_some]
  rw [nextScheduleWord, List.length_take_of_le hW, read (by decide) h2, read (by decide) h7, read (by decide) h15,
    read (by decide) h16]

theorem schedule_getElem?_of_wordsOfBytes {blk : List Byte} {i : Nat} {w : Word} (h : (wordsOfBytes blk)[i]? = some w) :
    (schedule blk)[i]? = some w := by
  obtain ⟨V, hV⟩ := prefix_extendSchedule 48 (wordsOfBytes blk)
  rw [schedule, ← hV, List.getElem?_append_left (List.getElem?_eq_some_iff.mp h).1, h]

/-- Settles O12: the first sixteen words are the block's, each of the 48 others the next word after those before it. -/
theorem scheduleRecurrence : Obligations.ScheduleRecurrence := by
  intro blk hblk
  refine ⟨schedule_length hblk, ?blockWords, ?recurrence⟩
  case blockWords =>
    intro i b0 b1 b2 b3 _ h0 h1 h2 h3
    exact schedule_getElem?_of_wordsOfBytes (wordsOfBytes_getElem? h0 h1 h2 h3)
  case recurrence =>
    intro t w2 w7 w15 w16 hlow hhigh h2 h7 h15 h16
    have hwords : (wordsOfBytes blk).length = 16 := by rw [wordsOfBytes_length, hblk]
    have hnext : (schedule blk)[t]? = some (nextScheduleWord ((schedule blk).take t)) :=
      extendSchedule_getElem? (by omega) (by omega)
    rw [hnext, nextScheduleWord_take hlow (by rw [schedule_length hblk]; omega) h2 h7 h15 h16]

end Sys2Proof.Machine
end

section
/-! PROOF. The rounds (spec/40_compression.md R105 to R107): the working variables after each of them, from the input state
to the feed-forward. -/

namespace Sys2Proof.Machine

/-- The working variables after the first `t` rounds of `Compress` (R105). -/
def workingAfter (h : Words8) (blk : List Byte) (t : Nat) : Working :=
  ((roundConstants.zip (schedule blk)).take t).foldl compressRound (workingOf h)

@[simp] theorem workingAfter_zero (h : Words8) (blk : List Byte) : workingAfter h blk 0 = workingOf h := rfl

theorem workingAfter_succ (h : Words8) {blk : List Byte} {t : Nat} {K W : Word} (hK : roundConstants[t]? = some K)
    (hW : (schedule blk)[t]? = some W) :
    workingAfter h blk (t + 1) = compressRound (workingAfter h blk t) (K, W) := by
  have hround : (roundConstants.zip (schedule blk))[t]? = some (K, W) := List.getElem?_zip_eq_some.mpr ⟨hK, hW⟩
  rw [workingAfter, List.take_add_one, hround, List.foldl_append]
  rfl

/-- There are no more than 64 rounds, whatever the schedule: the constants end there. -/
theorem compress_eq_feedForward (h : Words8) (blk : List Byte) :
    compress h blk = feedForward h (workingAfter h blk 64) := by
  have hall : (roundConstants.zip (schedule blk)).length ≤ 64 := by simp
  rw [compress, workingAfter, List.take_of_length_le hall]

/-- Settles O13: `workingAfter` starts at the input state, steps by one round, and ends in the feed-forward. -/
theorem compressRunsTheRounds : Obligations.CompressRunsTheRounds := fun h blk _ =>
  ⟨workingAfter h blk, workingAfter_zero h blk, fun _ _ _ _ hK hW => workingAfter_succ h hK hW,
    compress_eq_feedForward h blk⟩

end Sys2Proof.Machine
end

section
/-! PROOF. The round constants (spec/40_compression.md R102) from the primes they are made of; the cube roots are Mathlib's
`Nat.nthRoot`. -/

namespace Sys2Proof.Machine

/-- The primes up to 311, in order (R102): the numbers that are their own least factor, a test the kernel computes
quickly. -/
def constantPrimes : List Nat := (List.range 312).filter fun p => 2 ≤ p ∧ p.minFac = p

theorem mem_constantPrimes {p : Nat} : p ∈ constantPrimes ↔ p.Prime ∧ p ≤ 311 := by
  rw [constantPrimes, List.mem_filter, List.mem_range, decide_eq_true_iff, ← Nat.prime_def_minFac, and_comm,
    Nat.lt_succ_iff]

theorem constantPrimes_pairwise_lt : constantPrimes.Pairwise (· < ·) := List.pairwise_lt_range.filter _

theorem constantPrimes_length : constantPrimes.length = 64 := by decide +kernel

/-- `floor(cbrt(p) · 2^32)`, the cube root taken with the factor `2^96` under it (R102). -/
def scaledCubeRoot (p : Nat) : Nat := Nat.nthRoot 3 (p * 2 ^ 96)

theorem scaledCubeRoot_bounds (p : Nat) :
    scaledCubeRoot p ^ 3 ≤ p * 2 ^ 96 ∧ p * 2 ^ 96 < (scaledCubeRoot p + 1) ^ 3 :=
  ⟨Nat.pow_nthRoot_le (.inl (by decide)), Nat.lt_pow_nthRoot_add_one (by decide) _⟩

/-- The table of R102 is computed from its definition. -/
theorem roundConstants_eq_map :
    roundConstants = constantPrimes.map fun p => BitVec.ofNat 32 (scaledCubeRoot p) := by
  decide +kernel

/-- Settles O10: the table is the cube roots of the primes, and those are what their bounds say. -/
theorem roundConstantsAreCubeRoots : Obligations.RoundConstantsAreCubeRoots := by
  refine ⟨constantPrimes, constantPrimes_length, constantPrimes_pairwise_lt, fun _ => mem_constantPrimes, ?_⟩
  intro t p hp
  obtain ⟨hle, hlt⟩ := scaledCubeRoot_bounds p
  exact ⟨scaledCubeRoot p, hle, hlt, by rw [roundConstants_eq_map, List.getElem?_map, hp, Option.map_some]⟩

end Sys2Proof.Machine
end

section
/-! PROOF. The Absorb function (spec/41_init_absorb.md R122): what it leaves in the buffer, and when its counter is exact. -/

namespace Sys2Proof.Machine

/-- R122: the new buffer is what the whole blocks of the buffered and the new bytes leave over. -/
theorem Hasher.take_append_absorb_buf (st : Hasher) (D : List Byte) :
    (st.buf ++ D).take (64 * ((st.buf ++ D).length / 64)) ++ (st.absorb D).buf = st.buf ++ D :=
  List.take_append_drop _ _

theorem Hasher.absorb_buf_length (st : Hasher) (D : List Byte) :
    (st.absorb D).buf.length = (st.buf.length + D.length) % 64 := by
  simp only [Hasher.absorb, Config.blockBytes, List.length_drop, List.length_append]
  omega

/-- Within the bound of R125 the counter is exact. -/
theorem Hasher.absorb_count_toNat {st : Hasher} {D : List Byte} (h : st.count.toNat + D.length ≤ Config.maxCount) :
    (st.absorb D).count.toNat = st.count.toNat + D.length := by
  unfold Config.maxCount at h
  exact (BitVec.toNat_ofNat _ _).trans (Nat.mod_eq_of_lt (by omega))

/-- Fewer than 64 bytes are all left over. -/
theorem drop_whole_short {S : List Byte} (hS : S.length < Config.blockBytes) :
    S.drop (Config.blockBytes * (S.length / Config.blockBytes)) = S := by
  rw [Nat.div_eq_of_lt hS, Nat.mul_zero, List.drop_zero]

/-- Absorbing nothing into a state whose buffer holds no whole block leaves it as it is. -/
theorem Hasher.absorb_nil {st : Hasher} (h : st.buf.length < 64) : st.absorb [] = st := by
  simp only [Hasher.absorb, List.append_nil, compressAll_short _ h, drop_whole_short h, List.length_nil, Nat.add_zero,
    BitVec.ofNat_toNat, BitVec.setWidth_eq]

/-- Settles O15: the whole blocks are what stands before the new buffer in `BUF ++ D`, and both lengths follow. -/
theorem absorbKeepsLengthInvariant : Obligations.AbsorbKeepsLengthInvariant := by
  intro st D hbuf hbound
  have hcount := Hasher.absorb_count_toNat hbound
  refine ⟨?_, hcount, _, (st.take_append_absorb_buf D).symm, ?_, compressAll_whole _ _⟩
  · rw [st.absorb_buf_length, hcount, hbuf, Nat.mod_add_mod]
  · exact List.length_take_of_le (Nat.mul_div_le _ _)

end Sys2Proof.Machine
end

section
/-! PROOF. The source's four-step Absorb (spec/41_init_absorb.md R123): step 1 takes at most one whole block off the buffered
and the new bytes, step 2 takes the others. -/

namespace Sys2Proof.Machine

/-- A whole block at the front is one `Compress` before the rest. -/
theorem compressAll_block_append (h : Words8) {blk : List Byte} (S : List Byte)
    (hblk : blk.length = Config.blockBytes) : compressAll h (blk ++ S) = compressAll (compress h blk) S := by
  rw [compressAll_append h S (by rw [hblk, Nat.mod_self]), compressAll_block h hblk]

/-- A whole block at the front leaves nothing over. -/
theorem drop_whole_block_append {blk : List Byte} (S : List Byte) (hblk : blk.length = Config.blockBytes) :
    (blk ++ S).drop (Config.blockBytes * ((blk ++ S).length / Config.blockBytes))
      = S.drop (Config.blockBytes * (S.length / Config.blockBytes)) :=
  drop_whole_append S (by rw [hblk, Nat.mod_self])

/-- Step 2 with enough fuel compresses every whole block of the input, and the rest remains. -/
theorem absorbChunks_eq {fuel : Nat} (h : Words8) {D : List Byte} (hfuel : D.length ≤ fuel) :
    absorbChunks fuel h D = (compressAll h D, D.drop (Config.blockBytes * (D.length / Config.blockBytes))) := by
  induction fuel generalizing h D with
  | zero =>
    obtain rfl : D = [] := List.eq_nil_of_length_eq_zero (Nat.le_zero.mp hfuel)
    simp [absorbChunks]
  | succ fuel ih =>
    rw [absorbChunks]
    split
    · next hle =>
      have hblk : (D.take Config.blockBytes).length = Config.blockBytes := List.length_take_of_le hle
      have hrest : (D.drop Config.blockBytes).length ≤ fuel := by
        rw [List.length_drop]; simp only [Config.blockBytes]; omega
      rw [ih _ hrest, ← compressAll_block_append _ _ hblk, ← drop_whole_block_append _ hblk,
        List.take_append_drop]
    · next hlt =>
      have hlt := Nat.lt_of_not_le hlt
      rw [compressAll_short h hlt, drop_whole_short hlt]

/-- Step 1 does nothing when nothing is buffered or the input does not complete the block; otherwise it compresses the
first block of the buffered and the new bytes. -/
theorem completeBuffered_cases (h : Words8) {buf : List Byte} (D : List Byte) (hbuf : buf.length < 64) :
    (completeBuffered h buf D = (h, buf, D) ∧ (buf = [] ∨ buf.length + D.length < 64)) ∨
    ∃ blk rest, blk.length = Config.blockBytes ∧ buf ++ D = blk ++ rest ∧
      completeBuffered h buf D = (compress h blk, [], rest) := by
  unfold completeBuffered
  split
  · next hfull =>
    obtain ⟨_, hle⟩ := hfull
    let k := Config.blockBytes - buf.length
    refine .inr ⟨buf ++ D.take k, D.drop k, ?_, ?_, rfl⟩
    · simp only [k, Config.blockBytes, List.length_append, List.length_take] at hle ⊢
      omega
    · rw [List.append_assoc, List.take_append_drop]
  · next hpartial =>
    refine .inl ⟨rfl, ?_⟩
    rwa [not_and_or, not_not, Nat.not_le] at hpartial

/-- The four steps, with steps 2 to 4 read off what step 1 leaves. -/
theorem Hasher.absorbFourSteps_of_completeBuffered {st : Hasher} {D buf rest : List Byte} {h : Words8}
    (hstep : completeBuffered st.h st.buf D = (h, buf, rest)) :
    st.absorbFourSteps D =
      { h := compressAll h rest
        buf := buf ++ rest.drop (Config.blockBytes * (rest.length / Config.blockBytes))
        count := BitVec.ofNat 64 (st.count.toNat + D.length) } := by
  simp only [Hasher.absorbFourSteps, hstep, absorbChunks_eq h (Nat.le_refl rest.length)]

/-- Settles O17: whatever step 1 does, the block it compresses and the blocks of step 2 are those of `BUF ++ D`. -/
theorem fourStepAbsorbIsAbsorb : Obligations.FourStepAbsorbIsAbsorb := by
  intro st D hbuf _
  have hlt : st.buf.length < 64 := hbuf ▸ Nat.mod_lt _ (by decide)
  rcases completeBuffered_cases st.h D hlt with
    ⟨hstep, hnil | hshort⟩ | ⟨blk, rest, hblk, hsplit, hstep⟩
  all_goals rw [Hasher.absorbFourSteps_of_completeBuffered hstep, Hasher.absorb]
  case inl.inl => simp only [hnil, List.nil_append]
  case inl.inr =>
    have hD : D.length < Config.blockBytes := Nat.lt_of_le_of_lt (Nat.le_add_left _ _) hshort
    have hS : (st.buf ++ D).length < Config.blockBytes := List.length_append ▸ hshort
    simp only [compressAll_short _ hD, compressAll_short _ hS, drop_whole_short hD, drop_whole_short hS]
  case inr =>
    simp only [hsplit, compressAll_block_append _ _ hblk, drop_whole_block_append _ hblk, List.nil_append]

end Sys2Proof.Machine
end

section
/-! PROOF. The commands `INIT` and `ABSORB` (spec/41_init_absorb.md R121, R124 to R126), from what a command does on its words. -/

namespace Sys2Proof.Machine

/-- R124, R125: within the counter bound `ABSORB` completes. -/
theorem exec_absorb_of_le {s : State} {w : Word} {ws : List Word} {len : BitVec 24} (hc : s.CommandAt w ws)
    (hn : ws.length = dataWords len) (hle : s.live.count.toNat + len.toNat ≤ Config.maxCount) :
    exec (.absorb len) s
      = .next ((s.setLive (s.live.absorb (inlineData len.toNat ws))).advance (dataWords len)) := by
  rcases exec_of_commandAt (i := .absorb len) hc hn with ⟨_, ⟨_, rfl⟩, hx⟩ | ⟨_, ⟨hover, _⟩, _⟩
  · exact hx
  · exact absurd ((Hasher.overflows_iff _ _).mp hover) (Nat.not_lt.mpr hle)

/-- R125: beyond it `ABSORB` raises `LengthOverflow`. -/
theorem exec_absorb_of_lt {s : State} {w : Word} {ws : List Word} {len : BitVec 24} (hc : s.CommandAt w ws)
    (hn : ws.length = dataWords len) (hlt : Config.maxCount < s.live.count.toNat + len.toNat) :
    exec (.absorb len) s = .next (s.raise .lengthOverflow w) := by
  rcases exec_of_commandAt (i := .absorb len) hc hn with ⟨_, ⟨hfits, _⟩, _⟩ | ⟨_, ⟨_, rfl⟩, hx⟩
  · rw [(Hasher.overflows_iff _ _).mpr hlt] at hfits
    cases hfits
  · exact hx

/-- Settles O23: the two outcomes of `ABSORB`, and the exact counter of Absorb on as many bytes as `LEN` says. -/
theorem absorbResult : Obligations.AbsorbResult := by
  refine ⟨opcodeOverLen_toNat 0x02#8, fun s w ws len hc hn => ⟨fun hle => ⟨exec_absorb_of_le hc hn hle, ?_⟩,
    exec_absorb_of_lt hc hn⟩⟩
  have hdata : (inlineData len.toNat ws).length = len.toNat := inlineData_length_of_dataWords hn
  rw [Hasher.absorb_count_toNat (by rwa [hdata]), hdata]

/-- Settles O24: the invariant bounds the counter, so no byte more is no overflow, and the buffer, so Absorb compresses
nothing. -/
theorem zeroLengthAbsorb : Obligations.ZeroLengthAbsorb := by
  intro s w hinv hc
  obtain ⟨hbuf, hcount⟩ := hinv.live
  have hshort : s.live.buf.length < 64 := hbuf ▸ s.live.fill_lt
  have hlive : s.live.absorb (inlineData (0 : BitVec 24).toNat []) = s.live := Hasher.absorb_nil hshort
  have hx := exec_absorb_of_le (len := 0) hc rfl hcount
  rw [hlive] at hx
  exact hx

/-- Settles O22: `INIT` raises nothing, so on its word it completes. -/
theorem initResult : Obligations.InitResult := by
  refine ⟨by decide, fun s w hc => ?_⟩
  rcases exec_of_commandAt (i := .init) hc rfl with ⟨_, rfl, hx⟩ | ⟨_, hraises, _⟩
  · exact hx
  · cases hraises

end Sys2Proof.Machine
end

section
/-! PROOF. The initialization constants (spec/41_init_absorb.md R120) from the eight primes; the square roots are Mathlib's
`Nat.sqrt`. -/

namespace Sys2Proof.Machine

/-- `floor(sqrt(p) · 2^32)`, the square root taken with the factor `2^64` under it (R120). -/
def scaledSquareRoot (p : Nat) : Nat := Nat.sqrt (p * 2 ^ 64)

theorem scaledSquareRoot_bounds (p : Nat) :
    scaledSquareRoot p ^ 2 ≤ p * 2 ^ 64 ∧ p * 2 ^ 64 < (scaledSquareRoot p + 1) ^ 2 :=
  ⟨Nat.sqrt_le' _, Nat.lt_succ_sqrt' _⟩

/-- The constants are computed from their definition. -/
theorem iv_toList_eq_map :
    iv.toList = [2, 3, 5, 7, 11, 13, 17, 19].map fun p => BitVec.ofNat 32 (scaledSquareRoot p) := by
  decide +kernel

/-- Settles O11: the constants are the square roots of the primes, and those are what their bounds say. -/
theorem initializationConstantsAreSquareRoots : Obligations.InitializationConstantsAreSquareRoots := by
  refine ⟨rfl, fun q hq => ?_⟩
  rw [iv_toList_eq_map, ← List.map_prod_left_eq_zip] at hq
  obtain ⟨p, _, rfl⟩ := List.mem_map.mp hq
  obtain ⟨hle, hlt⟩ := scaledSquareRoot_bounds p
  exact ⟨scaledSquareRoot p, hle, hlt, rfl⟩

end Sys2Proof.Machine
end

section
/-! PROOF. What a command does on its words, once it is known that its conditions for completing hold, or those for a fault:
`exec_of_commandAt` read from the conditions to the outcome. -/

namespace Sys2Proof.Machine

/-- The conditions for completing leave no other outcome. -/
theorem exec_of_completed {i : Instr} {s t : State} {w : Word} {ws : List Word} (hc : s.CommandAt w ws)
    (hn : ws.length = i.inlineWords) (hd : Completed i s ws t) : exec i s = .next t := by
  have key : ∀ run, withCommand i.inlineWords s run = run w ws := fun _ => withCommand_of_commandAt hc hn
  cases i <;> simp only [Instr.inlineWords] at key
  case init | prime | final =>
    simp only [exec, execInit, execPrime, execFinal, key, hd.symm]
  case absorb | absorbx =>
    obtain ⟨hfits, rfl⟩ := hd
    simp only [exec, execAbsorb, execAbsorbx, key, hfits, Bool.false_eq_true, if_false]
  case importi =>
    obtain ⟨len, words, hoperands, hlegal, rfl⟩ := hd
    simp only [exec, execImporti, key, hoperands, hlegal]
  case importm =>
    obtain ⟨len, words, hoperand, hmid, hlegal, rfl⟩ := hd
    simp only [exec, execImportm, key, hoperand, hmid, hlegal]
  case save =>
    obtain ⟨k, hslot, rfl⟩ := hd
    simp only [exec, execSave, key, hslot]
  case restore =>
    obtain ⟨k, st, hslot, hfull, rfl⟩ := hd
    simp only [exec, execRestore, key, hslot, hfull]

/-- The conditions for a fault leave no other outcome. -/
theorem exec_of_raises {i : Instr} {s : State} {w : Word} {ws : List Word} {f : EngineFault} (hc : s.CommandAt w ws)
    (hn : ws.length = i.inlineWords) (hr : Raises i s ws f) : exec i s = .next (s.raise f w) := by
  have key : ∀ run, withCommand i.inlineWords s run = run w ws := fun _ => withCommand_of_commandAt hc hn
  cases i <;> simp only [Instr.inlineWords] at key
  case init | prime | final => cases hr
  case absorb | absorbx =>
    obtain ⟨hover, rfl⟩ := hr
    simp only [exec, execAbsorb, execAbsorbx, key, hover, if_true]
  case importi =>
    obtain ⟨len, words, hoperands, hfault⟩ := hr
    simp only [exec, execImporti, key, hoperands, hfault]
  case importm =>
    obtain ⟨len, hoperand, ⟨hmid, rfl⟩ | ⟨hmid, hfault⟩⟩ := hr
    · simp only [exec, execImportm, key, hoperand, hmid]
    · obtain ⟨words, hmid⟩ := Option.isSome_iff_exists.mp hmid
      simp only [exec, execImportm, key, hoperand, hmid, hfault]
  case save =>
    obtain ⟨hslot, rfl⟩ := hr
    simp only [exec, execSave, key, hslot]
  case restore =>
    obtain ⟨hslot, rfl⟩ | ⟨k, hslot, hempty, rfl⟩ := hr
    · simp only [exec, execRestore, key, hslot]
    · simp only [exec, execRestore, key, hslot, hempty]

end Sys2Proof.Machine
end

section
/-! PROOF. The commands `ABSORBX` and `PRIME` (spec/42_midstate.md R141, R144): Absorb, then `MID` from the accumulator at
a block boundary. -/

namespace Sys2Proof.Machine

/-- Whether a state is block-aligned after Absorb; `2^64` is a multiple of 64, so this needs no counter bound. -/
theorem Hasher.absorb_aligned_iff (st : Hasher) (D : List Byte) :
    (st.absorb D).aligned = true ↔ (st.count.toNat + D.length) % 64 = 0 := by
  rw [Hasher.aligned_iff, Hasher.absorb, BitVec.toNat_ofNat, Nat.mod_mod_of_dvd _ (by decide)]

/-- What `ABSORBX` and `PRIME` write: `MID` by the `COUNT` after the absorb (R141). -/
theorem State.setLive_absorb_exportMid_advance (s : State) (st : Hasher) {len : BitVec 24} {ws : List Word}
    (hn : ws.length = dataWords len) :
    ((s.setLive (st.absorb (inlineData len.toNat ws))).exportMid.advance (dataWords len)) = { s with
      live := st.absorb (inlineData len.toNat ws)
      mid := if (st.count.toNat + len.toNat) % 64 = 0 then some (st.absorb (inlineData len.toNat ws)).h else none
      pc := s.pc + 1 + dataWords len } := by
  have haligned := st.absorb_aligned_iff (inlineData len.toNat ws)
  rw [inlineData_length_of_dataWords hn] at haligned
  simp only [State.exportMid, State.setLive, State.advance, haligned]

/-- R141 within the counter bound. -/
theorem exec_absorbx_of_le {s : State} {w : Word} {ws : List Word} {len : BitVec 24} (hc : s.CommandAt w ws)
    (hn : ws.length = dataWords len) (hle : s.live.count.toNat + len.toNat ≤ Config.maxCount) :
    exec (.absorbx len) s = .next { s with
      live := s.live.absorb (inlineData len.toNat ws)
      mid := if (s.live.count.toNat + len.toNat) % 64 = 0
        then some (s.live.absorb (inlineData len.toNat ws)).h else none
      pc := s.pc + 1 + dataWords len } := by
  have hfits : s.live.overflows len = false :=
    Bool.eq_false_iff.mpr (mt (Hasher.overflows_iff _ _).mp (Nat.not_lt.mpr hle))
  rw [exec_of_completed (i := .absorbx len) hc hn ⟨hfits, rfl⟩, State.setLive_absorb_exportMid_advance _ _ hn]

/-- Settles O25: within the bound `MID` goes by the alignment of the new count; beyond it the overflow raises. -/
theorem absorbxResult : Obligations.AbsorbxResult :=
  ⟨opcodeOverLen_toNat 0x03#8, fun _ _ _ len hc hn => ⟨exec_absorbx_of_le hc hn, fun hlt =>
    exec_of_raises (i := .absorbx len) hc hn ⟨(Hasher.overflows_iff _ _).mpr hlt, rfl⟩⟩⟩

/-- Settles O26: `PRIME` absorbs into the state that `INIT` leaves, whose count of 0 is in bound with every `LEN`. -/
theorem primeResult : Obligations.PrimeResult := by
  refine ⟨opcodeOverLen_toNat 0x06#8, fun s w ws len hc hn => ?_⟩
  have hcount : Hasher.initial.count.toNat + len.toNat = len.toNat := Nat.zero_add _
  intro st mid
  constructor
  case left =>
    rw [exec_of_completed (i := .prime len) hc hn rfl, State.setLive_absorb_exportMid_advance _ _ hn, hcount]
    rfl
  case right =>
    intro t t₁ v v₁ hinit ht₁ habsorbx
    obtain ⟨_, hinitResult⟩ := initResult
    obtain rfl := Host.Outcome.next.inj (ht₁.symm.trans (hinitResult t v hinit))
    have hle : Hasher.initial.count.toNat + len.toNat ≤ Config.maxCount := by
      have := len.isLt
      rw [hcount, Config.maxCount]
      omega
    refine ⟨_, exec_absorbx_of_le habsorbx hn hle, rfl, ?_⟩
    show (if (Hasher.initial.count.toNat + len.toNat) % 64 = 0 then some st.h else none) = mid
    rw [hcount]

end Sys2Proof.Machine
end

section
/-! PROOF. The commands `IMPORTI` and `IMPORTM` (spec/42_midstate.md R145, R146, R148): the length's checks in their order, from
the two in-line words of the length as one number. -/

namespace Sys2Proof.Machine

theorem importLengthFault_of_unaligned {len : Count} (h : len.toNat % 64 ≠ 0) :
    importLengthFault len = some .unalignedImport := if_pos h

theorem importLengthFault_of_long {len : Count} (h0 : len.toNat % 64 = 0) (h : Config.maxCount < len.toNat) :
    importLengthFault len = some .lengthOverflow := (if_neg (not_not.mpr h0)).trans (if_pos h)

theorem importLengthFault_of_legal {len : Count} (h0 : len.toNat % 64 = 0) (h : len.toNat ≤ Config.maxCount) :
    importLengthFault len = none := (if_neg (not_not.mpr h0)).trans (if_neg (Nat.not_lt.mpr h))

theorem ofNat_eq_len64 (hi lo : Word) : BitVec.ofNat 64 (hi.toNat * 2 ^ 32 + lo.toNat) = len64 hi lo := by
  rw [← len64_toNat, BitVec.ofNat_toNat, BitVec.setWidth_eq]

/-- R145: what an import does by its length, when the checks alone decide its outcome. -/
theorem outcomes_of_importLengthFault {outcome : Host.Outcome State Fault Refusal} {s t : State} {w hi lo : Word}
    (hfault : ∀ f, importLengthFault (len64 hi lo) = some f → outcome = .next (s.raise f w))
    (hlegal : importLengthFault (len64 hi lo) = none → outcome = .next t) :
    let L := hi.toNat * 2 ^ 32 + lo.toNat
    (L % 64 ≠ 0 → outcome = .next (s.raise .unalignedImport w)) ∧
    (L % 64 = 0 → Config.maxCount < L → outcome = .next (s.raise .lengthOverflow w)) ∧
    (L % 64 = 0 → L ≤ Config.maxCount → outcome = .next t) := by
  rw [← len64_toNat]
  exact ⟨fun hu => hfault _ (importLengthFault_of_unaligned hu),
    fun h0 hlong => hfault _ (importLengthFault_of_long h0 hlong),
    fun h0 hle => hlegal (importLengthFault_of_legal h0 hle)⟩

/-- Settles O27: the operands are the ten words, so the checks of R145 alone decide. -/
theorem importiResult : Obligations.ImportiResult := by
  refine ⟨by decide, fun s w hi lo w0 w1 w2 w3 w4 w5 w6 w7 hc => ?_⟩
  refine outcomes_of_importLengthFault (fun f hf => exec_of_raises (i := .importi) hc rfl ⟨_, _, rfl, hf⟩)
    fun hf => ?_
  rw [ofNat_eq_len64]
  exact exec_of_completed (i := .importi) hc rfl ⟨_, _, rfl, hf, rfl⟩

/-- Settles O28: an empty `MID` raises whatever the length; with a snapshot the checks of R145 alone decide. -/
theorem importmResult : Obligations.ImportmResult := by
  refine ⟨by decide, fun s w hi lo hc => ⟨fun hmid => ?empty, fun words hmid => ?snapshot⟩⟩
  case empty => exact exec_of_raises (i := .importm) hc rfl ⟨_, rfl, .inl ⟨hmid, rfl⟩⟩
  case snapshot =>
    refine outcomes_of_importLengthFault
      (fun f hf => exec_of_raises (i := .importm) hc rfl ⟨_, rfl, .inr ⟨Option.isSome_of_eq_some hmid, hf⟩⟩)
      fun hf => ?_
    rw [ofNat_eq_len64]
    exact exec_of_completed (i := .importm) hc rfl ⟨_, _, rfl, hmid, hf, rfl⟩

end Sys2Proof.Machine
end

section
/-! PROOF. The padding of a counter (spec/43_finalize.md R161, R162), and the bytes of a digest (R164). -/

namespace Sys2Proof.Machine

/-- R161: `padZeros` is the least number of zero bytes that brings the fill to 56 mod 64. -/
theorem padZeros_least (cnt : Count) :
    (cnt.toNat % 64 + 1 + padZeros cnt) % 64 = 56 ∧ ∀ j, (cnt.toNat % 64 + 1 + j) % 64 = 56 → padZeros cnt ≤ j := by
  unfold padZeros Config.blockBytes
  exact ⟨by omega, fun j hj => by omega⟩

/-- R161: the padding fills one block when the `0x80` and the length field still fit into it, else two. -/
theorem fill_add_pad_length (cnt : Count) :
    cnt.toNat % 64 + (pad cnt).length = if cnt.toNat % 64 ≤ 55 then 64 else 128 := by
  rw [pad_length]
  unfold padZeros Config.blockBytes
  split <;> omega

/-- R162: the bit count of a legal counter fits the length field. -/
theorem bitCount_toNat {cnt : Count} (h : cnt.toNat ≤ Config.maxCount) :
    (BitVec.ofNat 64 (cnt.toNat * 8)).toNat = cnt.toNat * 8 := by
  unfold Config.maxCount at h
  exact (BitVec.toNat_ofNat _ _).trans (Nat.mod_eq_of_lt (by omega))

/-- Settles O14: the zero bytes are `padZeros`, the length field is the bit count without loss, and the length of the
padding goes by the side of the boundary the fill lies on. -/
theorem paddingLayout : Obligations.PaddingLayout := by
  intro cnt hcnt f
  obtain ⟨hzeros, hleast⟩ := padZeros_least cnt
  have hlen := fill_add_pad_length cnt
  exact ⟨padZeros cnt, BitVec.ofNat 64 (cnt.toNat * 8), rfl, bitCount_toNat hcnt, hzeros, hleast,
    fun hf => hlen.trans (if_pos hf), fun hf => hlen.trans (if_neg (Nat.not_le.mpr hf))⟩

/-- Settles O3: the serialized form is the bytes of its words, so each byte is a byte of its word. -/
theorem serializedWordBytes : Obligations.SerializedWordBytes := by
  refine fun v => ⟨by simp [serialize], fun i k => ?_⟩
  have hword : v.toList[i.val]? = some v[i] := by simp
  exact wordBytes_getElem? k.isLt hword

end Sys2Proof.Machine
end

section
/-! PROOF. What a Hasher State stands for (spec/41_init_absorb.md R128): `H` and `BUF` keep of a message all that compressing a
continuation of it needs, so Absorb extends the message and the digest is SHA-256 of it (spec/43_finalize.md R166). -/

namespace Sys2Proof.Machine

/-- The whole blocks of a sequence are whole blocks. -/
theorem take_whole_length_mod (S : List Byte) :
    (S.take (Config.blockBytes * (S.length / Config.blockBytes))).length % Config.blockBytes = 0 := by
  rw [List.length_take_of_le (Nat.mul_div_le _ _), Nat.mul_mod_right]

/-- Compressing `m ++ D` is compressing `m`, then what `m` left over with `D` after it. -/
theorem compressAll_resume (h : Words8) (m D : List Byte) :
    compressAll (compressAll h m) (m.drop (Config.blockBytes * (m.length / Config.blockBytes)) ++ D)
      = compressAll h (m ++ D) := by
  rw [compressAll_whole h m, ← compressAll_append _ _ (take_whole_length_mod m), ← List.append_assoc,
    List.take_append_drop]

/-- What `m ++ D` leaves over is what is left over of `D` after the bytes that `m` left over. -/
theorem drop_whole_resume (m D : List Byte) :
    let S := m.drop (Config.blockBytes * (m.length / Config.blockBytes)) ++ D
    S.drop (Config.blockBytes * (S.length / Config.blockBytes))
      = (m ++ D).drop (Config.blockBytes * ((m ++ D).length / Config.blockBytes)) := by
  intro S
  rw [← drop_whole_append S (take_whole_length_mod m), ← List.append_assoc, List.take_append_drop]

/-- R128: within the counter bound, absorbing `D` extends the message by `D`. -/
theorem Hasher.Holds.absorb {st : Hasher} {m D : List Byte} (h : st.Holds m)
    (hle : m.length + D.length ≤ Config.maxCount) : (st.absorb D).Holds (m ++ D) := by
  obtain ⟨hcount, hh, hbuf⟩ := h
  refine ⟨?count, ?h, ?buf⟩
  case count => rw [Hasher.absorb_count_toNat (hcount ▸ hle), hcount, List.length_append]
  case h => rw [← compressAll_resume, ← hh, ← hbuf]; rfl
  case buf => rw [← drop_whole_resume, ← hbuf]; rfl

/-- R166: the digest of a state that stands for `m` is SHA-256 of `m`. -/
theorem Hasher.Holds.finalDigest_eq {st : Hasher} {m : List Byte} (h : st.Holds m) : st.finalDigest = sha256 m := by
  obtain ⟨hcount, hh, hbuf⟩ := h
  have hlen : BitVec.ofNat 64 m.length = st.count := by rw [← hcount, BitVec.ofNat_toNat, BitVec.setWidth_eq]
  rw [Hasher.finalDigest, hh, hbuf, compressAll_resume, sha256, hlen]

end Sys2Proof.Machine
end

section
/-! PROOF. The command `FINAL` (spec/43_finalize.md R163, R165): it writes the digest of the live state and leaves that state as
it is, so more data can follow it. -/

namespace Sys2Proof.Machine

/-- R163: on its word `FINAL` completes. -/
theorem exec_final {s : State} {w : Word} (hc : s.CommandAt w []) :
    exec .final s = .next ((s.setDigest s.live.finalDigest).advance 0) :=
  exec_of_completed (i := .final) hc rfl rfl

/-- R163: `FINAL` raises nothing, so a next state is the one of completing. -/
theorem eq_of_exec_final {s t : State} (h : exec .final s = .next t) :
    t = (s.setDigest s.live.finalDigest).advance 0 := by
  obtain ⟨_, _, _, _, hd | ⟨_, hraises, _⟩⟩ := exec_next h
  · exact hd
  · cases hraises

/-- Settles O29: the state `FINAL` completes with, the digest written out as the fold over its blocks. -/
theorem finalResult : Obligations.FinalResult :=
  ⟨by decide, fun _ _ hc => exec_final hc⟩

/-- Settles O21: `FINAL` leaves the live state, so `ABSORB` extends the message the first digest was of, and the second
digest is of the longer one. -/
theorem finalThenMoreData : Obligations.FinalThenMoreData := by
  constructor
  case left =>
    intro s t hfinal
    rw [eq_of_exec_final hfinal]
    rfl
  case right =>
    intro s t u w w₁ w₂ ds m len hm hle hds _ hfinal habsorbAt habsorb hfinalAt
    have hdata : (inlineData len.toNat ds).length = len.toNat := inlineData_length_of_dataWords hds
    obtain rfl := eq_of_exec_final hfinal
    have hfits : s.live.count.toNat + len.toNat ≤ Config.maxCount := by
      obtain ⟨hcount, _, _⟩ := hm
      rwa [hcount]
    obtain rfl := Host.Outcome.next.inj ((exec_absorb_of_le habsorbAt hds hfits).symm.trans habsorb)
    have hextended := hm.absorb (D := inlineData len.toNat ds) (by rwa [hdata])
    exact ⟨congrArg some hm.finalDigest_eq, _, exec_final hfinalAt, congrArg some hextended.finalDigest_eq⟩

end Sys2Proof.Machine
end

section
/-! PROOF. The commands `SAVE` and `RESTORE` (spec/44_clone.md R181, R182), each on a slot number that names one of the slots. -/

namespace Sys2Proof.Machine

/-- R181: on its word `SAVE` completes, whatever the slot held. -/
theorem exec_save {s : State} {w : Word} {slot : BitVec 8} {i : Fin Config.nslot} (hc : s.CommandAt w [])
    (hslot : slot.toNat = i.val) : exec (.save slot) s = .next ((s.setSlot i s.live).advance 0) :=
  exec_of_completed (i := .save slot) hc rfl ⟨i, slotIndex_eq_some.mpr hslot, rfl⟩

/-- R182 on a slot that holds none. -/
theorem exec_restore_of_none {s : State} {w : Word} {slot : BitVec 8} {i : Fin Config.nslot} (hc : s.CommandAt w [])
    (hslot : slot.toNat = i.val) (hempty : s.slots[i] = none) :
    exec (.restore slot) s = .next (s.raise .invalidSource w) :=
  exec_of_raises (i := .restore slot) hc rfl (.inr ⟨i, slotIndex_eq_some.mpr hslot, hempty, rfl⟩)

/-- R182 on a slot that holds a state. -/
theorem exec_restore_of_some {s : State} {w : Word} {slot : BitVec 8} {i : Fin Config.nslot} {st : Hasher}
    (hc : s.CommandAt w []) (hslot : slot.toNat = i.val) (hfull : s.slots[i] = some st) :
    exec (.restore slot) s = .next ((s.setLive st).advance 0) :=
  exec_of_completed (i := .restore slot) hc rfl ⟨i, st, slotIndex_eq_some.mpr hslot, hfull, rfl⟩

/-- Settles O31: what the slot holds decides between the fault and the copy. -/
theorem restoreResult : Obligations.RestoreResult :=
  ⟨opcodeOverSlot_toNat 0x09#8, fun _ _ _ _ hc hslot =>
    ⟨exec_restore_of_none hc hslot, fun _ => exec_restore_of_some hc hslot⟩⟩

/-- Settles O30: the state `SAVE` completes with, written out as one record update. -/
theorem saveResult : Obligations.SaveResult :=
  ⟨opcodeOverSlot_toNat 0x08#8, fun _ _ _ _ => exec_save⟩

end Sys2Proof.Machine
end

section
/-! PROOF. Illegal command words (spec/60_exceptions.md R207): they do not decode, and a step on one faults at once. -/

namespace Sys2Proof

theorem decode_of_reserved_opcode {w : Word} (h : w.toNat / 2 ^ 24 = 0 ∨ 10 ≤ w.toNat / 2 ^ 24) :
    decode w = .error .reservedOpcode := by
  rw [← Laws.EncodedForm.opField_toNat] at h
  unfold decode
  split
  case h_10 => rfl
  all_goals omega

/-- The opcodes of formats Z and M. -/
theorem decode_of_bare_opcode {w : Word}
    (h : w.toNat / 2 ^ 24 = 1 ∨ w.toNat / 2 ^ 24 = 7 ∨ w.toNat / 2 ^ 24 = 4 ∨ w.toNat / 2 ^ 24 = 5) :
    ∃ i, decode w = decodeBare w i := by
  rcases h with h | h | h | h <;> exact ⟨_, by simp only [decode, Laws.EncodedForm.opField_toNat, h]; rfl⟩

/-- The opcodes of format S. -/
theorem decode_of_slot_opcode {w : Word} (h : w.toNat / 2 ^ 24 = 8 ∨ w.toNat / 2 ^ 24 = 9) :
    ∃ i, decode w = decodeSlot w i := by
  rcases h with h | h <;> exact ⟨_, by simp only [decode, Laws.EncodedForm.opField_toNat, h]; rfl⟩

theorem decodeBare_of_low_ne_zero {w : Word} (i : Instr) (h : w.toNat % 2 ^ 24 ≠ 0) :
    decodeBare w i = .error .reservedField :=
  if_neg (mt (lenField_eq_zero w).mp h)

/-- A reserved field that is not zero, or a slot number that names no slot. -/
theorem decodeSlot_of_illegal {w : Word} (i : BitVec 8 → Instr)
    (h : w.toNat % 2 ^ 24 / 2 ^ 8 ≠ 0 ∨ 4 ≤ w.toNat % 2 ^ 24 % 2 ^ 8) : ∃ e, decodeSlot w i = .error e := by
  by_cases hreserved : slotReserved w = 0
  · have hslot : slotLegal (slotField w) = false := by
      rw [slotReserved_eq_zero] at hreserved
      simp only [slotLegal, slotField_toNat, Config.nslot, decide_eq_false_iff_not]
      omega
    exact ⟨.noSuchSlot, by simp [decodeSlot, hreserved, hslot]⟩
  · exact ⟨.reservedField, if_pos hreserved⟩

/-- The three ways in which a word selects no command. -/
theorem decode_error_of_illegal {w : Word}
    (h : w.toNat / 2 ^ 24 = 0 ∨ 10 ≤ w.toNat / 2 ^ 24 ∨
      ((w.toNat / 2 ^ 24 = 1 ∨ w.toNat / 2 ^ 24 = 7 ∨ w.toNat / 2 ^ 24 = 4 ∨ w.toNat / 2 ^ 24 = 5) ∧
        w.toNat % 2 ^ 24 ≠ 0) ∨
      ((w.toNat / 2 ^ 24 = 8 ∨ w.toNat / 2 ^ 24 = 9) ∧
        (w.toNat % 2 ^ 24 / 2 ^ 8 ≠ 0 ∨ 4 ≤ w.toNat % 2 ^ 24 % 2 ^ 8))) : ∃ e, decode w = .error e := by
  rcases h with h | h | ⟨hop, hlow⟩ | ⟨hop, hslot⟩
  · exact ⟨_, decode_of_reserved_opcode (.inl h)⟩
  · exact ⟨_, decode_of_reserved_opcode (.inr h)⟩
  · obtain ⟨i, hdecode⟩ := decode_of_bare_opcode hop
    exact ⟨_, hdecode.trans (decodeBare_of_low_ne_zero i hlow)⟩
  · obtain ⟨i, hdecode⟩ := decode_of_slot_opcode hop
    rw [hdecode]
    exact decodeSlot_of_illegal i hslot

end Sys2Proof

namespace Sys2Proof.Machine

theorem step_of_decode_error {s : State} {w : Word} {e : Illegal} (hf : s.fault = false)
    (hw : s.stream[s.pc]? = some w) (he : decode w = .error e) : step s = .next (s.raise .illegalCommand w) := by
  simp only [step, hf, Bool.false_eq_true, if_false, fetch, hw, he, raiseIllegal]

/-- Settles O33: each of the three kinds of illegal word fails to decode, and the step then raises `IllegalCommand`. -/
theorem illegalWordFaults : Obligations.IllegalWordFaults := by
  intro s w hf hw _ _ hillegal
  obtain ⟨_, he⟩ := decode_error_of_illegal hillegal
  exact step_of_decode_error hf hw he

end Sys2Proof.Machine
end

section
/-! PROOF. Precise faults (spec/60_exceptions.md R204, R205): a step completes a command and leaves `FAULT = 0`, or raises
a fault on the word at `pc`. -/

namespace Sys2Proof.Machine

/-- `step_next` and `exec_next` in one: the illegal word and the fault of a command are one case. -/
theorem step_completes_or_raises {s t : State} (h : step s = .next t) :
    ∃ w, s.stream[s.pc]? = some w ∧
      ((∃ i ws, decode w = .ok i ∧ Completed i s ws t) ∨ ∃ f, t = s.raise f w) := by
  obtain ⟨_, w, hw, ⟨_, _, ht⟩ | ⟨i, hi, hx⟩⟩ := step_next h
  · exact ⟨w, hw, .inr ⟨_, ht⟩⟩
  · obtain ⟨w', ws, hc, _, hd | ⟨f, _, ht⟩⟩ := exec_next hx
    · exact ⟨w, hw, .inl ⟨i, ws, hi, hd⟩⟩
    · exact ⟨w', hc.fetch, .inr ⟨f, ht⟩⟩

/-- A step that ends with `FAULT = 1` raised a fault. -/
theorem eq_raise_of_step_fault {s t : State} (h : step s = .next t) (ht : t.fault = true) :
    ∃ w f, s.stream[s.pc]? = some w ∧ t = s.raise f w := by
  obtain ⟨w, hw, ⟨i, ws, _, hd⟩ | ⟨f, hraise⟩⟩ := step_completes_or_raises h
  · obtain ⟨hf, _⟩ := step_next h
    rw [hd.fault_eq, hf] at ht
    cases ht
  · exact ⟨w, f, hw, hraise⟩

/-- Settles O35: the new state is the raised fault, whose `FAULT` and `CAUSE` stand in `STATUS`. -/
theorem faultsArePrecise : Obligations.FaultsArePrecise := by
  intro s t h ht
  obtain ⟨w, f, hw, rfl⟩ := eq_raise_of_step_fault h ht
  obtain ⟨hfault, _⟩ := (s.raise f w).status_flags
  obtain ⟨_, _, hcause, _⟩ := (s.raise f w).status_fields
  exact ⟨w, f, hw, rfl, hfault, hcause⟩

end Sys2Proof.Machine
end

section
/-! PROOF. A bound on the steps (spec/60_exceptions.md R213): each step faults or moves `pc` forward inside the stream, so the
number of words at and after `pc` bounds the steps. -/

namespace Sys2Proof.Machine

/-- The engine has ended, waits or is halted, and has no next step. -/
def State.AtRest (s : State) : Prop :=
  (s.Ended ∨ s.Waiting ∨ s.fault = true) ∧ ∀ u, step s ≠ .next u

theorem State.atRest_of_fault {s : State} (hf : s.fault = true) : s.AtRest := by
  refine ⟨.inr (.inr hf), fun u h => ?_⟩
  obtain ⟨hf', _⟩ := step_next h
  rw [hf] at hf'
  cases hf'

theorem State.atRest_of_ended {s : State} (he : s.Ended) : s.AtRest := by
  refine ⟨.inl he, fun u h => ?_⟩
  obtain ⟨_, w, hw, _⟩ := step_next h
  obtain ⟨hpc, _⟩ := List.getElem?_eq_some_iff.mp hw
  exact hpc.ne he.1

theorem step_of_decode_ok {s : State} {w : Word} {i : Instr} (hf : s.fault = false)
    (hw : s.stream[s.pc]? = some w) (hi : decode w = .ok i) : step s = exec i s := by
  simp only [step, hf, Bool.false_eq_true, if_false, fetch, hw, hi]

/-- From inside the stream the engine is at rest, or its next step faults or moves `pc` forward, no further than to the end
of the stream: the words of a completed command all lie inside it (spec/20_memory.md R52). -/
theorem atRest_or_step {s : State} (hpc : s.pc ≤ s.stream.length) :
    s.AtRest ∨ s.pc < s.stream.length ∧ ∃ t, step s = .next t ∧
      (t.fault = true ∨ t.stream = s.stream ∧ s.pc < t.pc ∧ t.pc ≤ s.stream.length) := by
  cases hf : s.fault
  case true => exact .inl (State.atRest_of_fault hf)
  obtain hend | hlt := hpc.eq_or_lt
  · exact .inl (State.atRest_of_ended ⟨hend, hf⟩)
  have hw := List.getElem?_eq_getElem hlt
  cases hi : decode s.stream[s.pc] with
  | error e => exact .inr ⟨hlt, _, step_of_decode_error hf hw hi, .inl rfl⟩
  | ok i =>
    have hstep := step_of_decode_ok hf hw hi
    obtain ⟨hshort, hx⟩ | ⟨w, ws, _, _, hinside, ⟨t, hd, hx⟩ | ⟨f, _, hx⟩⟩ := exec_cases i s
    · refine .inl ⟨.inr (.inl ⟨hf, _, i, hw, hi, hshort⟩), fun u => ?_⟩
      rw [hstep, hx]
      exact nofun
    · have ht := hd.pc_eq
      exact .inr ⟨hlt, t, hstep.trans hx, .inr ⟨hd.stream_eq, by omega, by omega⟩⟩
    · exact .inr ⟨hlt, _, hstep.trans hx, .inl rfl⟩

theorem core_run_succ {s t : State} (h : step s = .next t) (k : Nat) : core.run (k + 1) s = core.run k t := by
  have hcore : core.step s = .next t := h
  simp only [Host.Core.run, hcore]

/-- Every run from inside the stream comes to rest, by recursion on the number of words not yet passed. -/
theorem run_to_rest {s : State} (hpc : s.pc ≤ s.stream.length) :
    ∃ k t, k ≤ s.stream.length - s.pc ∧ core.run k s = .next t ∧ State.AtRest t := by
  obtain hrest | ⟨hlt, t, hstep, hfault | ⟨hstream, hgrows, hinside⟩⟩ := atRest_or_step hpc
  · exact ⟨0, s, Nat.zero_le _, rfl, hrest⟩
  · exact ⟨1, t, by omega, core_run_succ hstep 0, State.atRest_of_fault hfault⟩
  · have hlength : t.stream.length = s.stream.length := congrArg List.length hstream
    obtain ⟨k, u, hk, hrun, hrest⟩ := run_to_rest (hlength ▸ hinside)
    exact ⟨k + 1, u, by omega, (core_run_succ hstep k).trans hrun, hrest⟩
termination_by s.stream.length - s.pc
decreasing_by omega

/-- Settles O38: a completed command moves `pc` past its words, and the words bound the steps. -/
theorem atMostOneStepPerWord : Obligations.AtMostOneStepPerWord := by
  refine ⟨fun s t w i hw hi h ht => ?_, fun s hpc => run_to_rest hpc⟩
  obtain ⟨w', hw', ⟨j, ws, hj, hd⟩ | ⟨f, rfl⟩⟩ := step_completes_or_raises h
  · obtain rfl : w = w' := Option.some.inj (hw.symm.trans hw')
    obtain rfl : i = j := Except.ok.inj (hi.symm.trans hj)
    exact hd.pc_eq
  · cases ht

end Sys2Proof.Machine
end

section
/-! PROOF. Reset (spec/70_reset_and_hazards.md R230): the four slots it leaves are empty, and with that the whole list of the rule. -/

namespace Sys2Proof.Machine

/-- The slots after reset are four copies of `none`, so each of them is `none`. -/
theorem State.resetTo_slot (s : State) (stream : List Word) (j : Fin 4) : (s.resetTo stream).slots[j] = none := by
  have hslots : (s.resetTo stream).slots = Vector.replicate 4 none := s.resetTo_slots stream
  rw [hslots, Fin.getElem_fin, Vector.getElem_replicate]

/-- Settles O53: what reset leaves in each field, one after the other, and in each of the four slots. -/
theorem resetTransition : Obligations.ResetTransition := fun s stream =>
  ⟨s.resetTo_live stream, s.resetTo_mid stream, s.resetTo_digest stream, s.resetTo_slot stream,
    s.resetTo_fault stream, s.resetTo_cause stream, s.resetTo_fcmd stream, s.resetTo_fpc stream,
    s.resetTo_pc stream, s.resetTo_stream stream⟩

end Sys2Proof.Machine
end

section
/-! PROOF. The decoder and the encoder (spec/30_encoding.md R71 to R75): a word is its opcode over its other fields, so decoding
and encoding undo each other. -/

namespace Sys2Proof

/-! The fields of a word that is put together from them. -/

@[simp] theorem opField_append_eq (op : BitVec 8) (x : BitVec 24) : opField (op ++ x) = op :=
  BitVec.eq_of_toNat_eq (Laws.EncodedForm.opField_append op x)

@[simp] theorem lenField_append (op : BitVec 8) (x : BitVec 24) : lenField (op ++ x) = x := by
  have hx := x.isLt
  apply BitVec.eq_of_toNat_eq
  rw [lenField_toNat, opcodeOverLen_toNat]
  omega

@[simp] theorem opField_slot_eq (op slot : BitVec 8) : opField (op ++ 0#16 ++ slot) = op :=
  BitVec.eq_of_toNat_eq (Laws.EncodedForm.opField_slot op slot)

@[simp] theorem slotReserved_slot (op slot : BitVec 8) : slotReserved (op ++ 0#16 ++ slot) = 0 := by
  have hslot := slot.isLt
  rw [slotReserved_eq_zero, opcodeOverSlot_toNat]
  omega

@[simp] theorem slotField_slot (op slot : BitVec 8) : slotField (op ++ 0#16 ++ slot) = slot := by
  have hslot := slot.isLt
  apply BitVec.eq_of_toNat_eq
  rw [slotField_toNat, opcodeOverSlot_toNat]
  omega

/-! A word from its fields. -/

theorem append_eq_of_lenField {w : Word} {op : BitVec 8} {x : BitVec 24} (hop : (opField w).toNat = op.toNat)
    (hx : lenField w = x) : op ++ x = w := by
  subst hx
  apply BitVec.eq_of_toNat_eq
  rw [opcodeOverLen_toNat, ← hop, Laws.EncodedForm.opField_toNat, lenField_toNat]
  omega

theorem append_eq_of_slotField {w : Word} {op slot : BitVec 8} (hop : (opField w).toNat = op.toNat)
    (hreserved : slotReserved w = 0) (hslot : slotField w = slot) : op ++ 0#16 ++ slot = w := by
  subst hslot
  have hw := w.isLt
  rw [slotReserved_eq_zero] at hreserved
  apply BitVec.eq_of_toNat_eq
  rw [opcodeOverSlot_toNat, ← hop, Laws.EncodedForm.opField_toNat, slotField_toNat]
  omega

/-! What each format's decoder accepts. -/

theorem decodeBare_eq_ok {w : Word} {i j : Instr} : decodeBare w i = .ok j ↔ lenField w = 0 ∧ i = j := by
  unfold decodeBare
  split
  · next h => simp only [h, Except.ok.injEq, true_and]
  · next h => simp only [h, reduceCtorEq, false_and]

theorem decodeSlot_eq_ok {w : Word} {i : BitVec 8 → Instr} {j : Instr} :
    decodeSlot w i = .ok j ↔ slotReserved w = 0 ∧ slotLegal (slotField w) = true ∧ i (slotField w) = j := by
  unfold decodeSlot
  split
  · next h => simp only [h, reduceCtorEq, false_and]
  · next h =>
    have hreserved := not_not.mp h
    split
    · next hlegal => simp only [hreserved, hlegal, Except.ok.injEq, true_and]
    · next hlegal => simp only [hreserved, hlegal, reduceCtorEq, false_and, and_false]

theorem decodeSlot_slot {op slot : BitVec 8} (i : BitVec 8 → Instr) (h : slotLegal slot = true) :
    decodeSlot (op ++ 0#16 ++ slot) i = .ok (i slot) :=
  decodeSlot_eq_ok.mpr ⟨slotReserved_slot op slot, by rwa [slotField_slot], by rw [slotField_slot]⟩

/-- Settles O7: the fields of an encoded instruction are its opcode and its operand, which each format's decoder accepts. -/
theorem decodeOfEncode : Obligations.DecodeOfEncode := by
  intro i hwf
  cases i with
  | init | importi | importm | final => decide
  | absorb len | absorbx len | prime len => simp [encode, decode]
  | save slot | restore slot =>
    rw [encode, decode, opField_slot_eq]
    exact decodeSlot_slot _ hwf

/-- Settles O8: whatever the opcode, the format's decoder accepted the other fields, and with them they are the whole word. -/
theorem encodeOfDecode : Obligations.EncodeOfDecode := by
  intro w i h
  unfold decode at h
  split at h
  case h_1 hop | h_4 hop | h_5 hop | h_7 hop =>
    obtain ⟨hlow, rfl⟩ := decodeBare_eq_ok.mp h
    exact ⟨rfl, append_eq_of_lenField hop hlow⟩
  case h_2 hop | h_3 hop | h_6 hop =>
    obtain rfl := Except.ok.inj h
    exact ⟨rfl, append_eq_of_lenField hop rfl⟩
  case h_8 hop | h_9 hop =>
    obtain ⟨hreserved, hlegal, rfl⟩ := decodeSlot_eq_ok.mp h
    exact ⟨hlegal, append_eq_of_slotField hop hreserved rfl⟩
  case h_10 => cases h

/-! The same decoder on the word as a number. -/

theorem lenField_eq_ofNat (w : Word) : lenField w = BitVec.ofNat 24 (w.toNat % 2 ^ 24) := by
  rw [← lenField_toNat, BitVec.ofNat_toNat, BitVec.setWidth_eq]

theorem decodeBare_eq_ite (w : Word) (i : Instr) :
    decodeBare w i = if w.toNat % 2 ^ 24 = 0 then .ok i else .error .reservedField := by
  simp only [decodeBare, lenField_eq_zero]

theorem decodeSlot_eq_ite (w : Word) (i : BitVec 8 → Instr) :
    decodeSlot w i =
      if w.toNat % 2 ^ 24 / 2 ^ 8 ≠ 0 then .error .reservedField
      else if w.toNat % 2 ^ 24 < 4 then .ok (i (BitVec.ofNat 8 (w.toNat % 2 ^ 24))) else .error .noSuchSlot := by
  have hreserved : slotReserved w ≠ 0 ↔ w.toNat % 2 ^ 24 / 2 ^ 8 ≠ 0 := by
    rw [Ne, slotReserved_eq_zero]
    omega
  have hslot : slotField w = BitVec.ofNat 8 (w.toNat % 2 ^ 24) := by
    apply BitVec.eq_of_toNat_eq
    rw [slotField_toNat, BitVec.toNat_ofNat]
    omega
  unfold decodeSlot
  by_cases h : w.toNat % 2 ^ 24 / 2 ^ 8 ≠ 0
  · rw [if_pos (hreserved.mpr h), if_pos h]
  · have hlegal : slotLegal (slotField w) = true ↔ w.toNat % 2 ^ 24 < 4 := by
      rw [slotLegal, decide_eq_true_iff, slotField_toNat, Config.nslot]
      omega
    rw [if_neg (mt hreserved.mp h), if_neg h, ← hslot]
    simp only [hlegal]

/-- Settles O5: the opcode selects the format, and each format's fields are the low 24 bits as a number. -/
theorem decodeFollowsFormats : Obligations.DecodeFollowsFormats := by
  intro w op low bare slot
  have hop : (opField w).toNat = op := Laws.EncodedForm.opField_toNat w
  refine ⟨?_, ?_, ?_, ?_, ?_, ?_, ?_, ?_, ?_, decode_of_reserved_opcode⟩
  all_goals
    intro h
    simp only [decode, hop, h]
  · exact decodeBare_eq_ite w .init
  · exact decodeBare_eq_ite w .final
  · rw [lenField_eq_ofNat]
  · rw [lenField_eq_ofNat]
  · rw [lenField_eq_ofNat]
  · exact decodeSlot_eq_ite w .save
  · exact decodeSlot_eq_ite w .restore
  · exact decodeBare_eq_ite w .importi
  · exact decodeBare_eq_ite w .importm

/-- Settles O4: the decoder evaluated on each of the twelve words. -/
theorem decodeOfWrittenWords : Obligations.DecodeOfWrittenWords := by
  unfold Obligations.DecodeOfWrittenWords
  decide

end Sys2Proof
end

section
/-! PROOF. The opcode map (spec/30_encoding.md R78): its masks keep whole fields of a word, so the words that select a row are
the encodings of its command. -/

namespace Sys2Proof

theorem and_highMask_eq_iff {w m p : Word} (k : Nat) (hk : k ≤ 32) (hm : m = BitVec.allOnes 32 <<< k) :
    w &&& m = p ↔ w.toNat / 2 ^ k * 2 ^ k = p.toNat := by
  rw [← BitVec.toNat_inj, hm, highMask_toNat w hk]

/-! The three kinds of row: formats Z and M, format L, format S. -/

theorem OpcodeRow.selects_bare (name : String) (op : BitVec 8) (w : Word) :
    (OpcodeRow.mk name (op ++ 0#24) 0xFFFFFFFF false).selects w = true ↔ op ++ 0#24 = w := by
  simp only [OpcodeRow.selects, Bool.not_false, Bool.true_or, Bool.and_true, decide_eq_true_iff]
  rw [and_highMask_eq_iff 0 (by decide) (by decide), ← BitVec.toNat_inj, Nat.pow_zero, Nat.div_one, Nat.mul_one]
  exact eq_comm

theorem OpcodeRow.selects_len (name : String) (op : BitVec 8) (w : Word) :
    (OpcodeRow.mk name (op ++ 0#24) 0xFF000000 false).selects w = true ↔ op ++ lenField w = w := by
  simp only [OpcodeRow.selects, Bool.not_false, Bool.true_or, Bool.and_true, decide_eq_true_iff]
  rw [and_highMask_eq_iff 24 (by decide) (by decide), ← BitVec.toNat_inj, opcodeOverLen_toNat, opcodeOverLen_toNat,
    lenField_toNat, BitVec.toNat_ofNat]
  omega

theorem OpcodeRow.selects_slot (name : String) (op : BitVec 8) (w : Word) :
    (OpcodeRow.mk name (op ++ 0#24) 0xFFFFFF00 true).selects w = true ↔
      op ++ 0#16 ++ slotField w = w ∧ slotLegal (slotField w) = true := by
  simp only [OpcodeRow.selects, Bool.not_true, Bool.false_or, Bool.and_eq_true, decide_eq_true_iff]
  rw [and_highMask_eq_iff 8 (by decide) (by decide), ← BitVec.toNat_inj, opcodeOverLen_toNat, opcodeOverSlot_toNat,
    slotField_toNat, BitVec.toNat_ofNat]
  refine and_congr_left' ?_
  omega

/-- The command word of an instruction selects the row of its mnemonic. -/
theorem exists_row_selects_encode {i : Instr} (hwf : i.wf = true) :
    ∃ r ∈ opcodeTable, r.selects (encode i) = true ∧ r.mnemonic = i.mnemonic := by
  have hlen (op : BitVec 8) (len : BitVec 24) : op ++ lenField (op ++ len) = op ++ len := by rw [lenField_append]
  have hslot {op slot : BitVec 8} (h : slotLegal slot = true) :
      op ++ 0#16 ++ slotField (op ++ 0#16 ++ slot) = op ++ 0#16 ++ slot ∧
        slotLegal (slotField (op ++ 0#16 ++ slot)) = true := by
    rw [slotField_slot]
    exact ⟨rfl, h⟩
  cases i with
  | init | importi | importm | final => decide
  | absorb len =>
    exact ⟨opcodeTable[1], List.getElem_mem _, (OpcodeRow.selects_len _ 0x02#8 _).mpr (hlen _ len), rfl⟩
  | absorbx len =>
    exact ⟨opcodeTable[2], List.getElem_mem _, (OpcodeRow.selects_len _ 0x03#8 _).mpr (hlen _ len), rfl⟩
  | prime len =>
    exact ⟨opcodeTable[5], List.getElem_mem _, (OpcodeRow.selects_len _ 0x06#8 _).mpr (hlen _ len), rfl⟩
  | save slot =>
    exact ⟨opcodeTable[7], List.getElem_mem _, (OpcodeRow.selects_slot _ 0x08#8 _).mpr (hslot hwf), rfl⟩
  | restore slot =>
    exact ⟨opcodeTable[8], List.getElem_mem _, (OpcodeRow.selects_slot _ 0x09#8 _).mpr (hslot hwf), rfl⟩

/-- A word that selects a row is the command word of an instruction with the row's mnemonic. -/
theorem exists_encode_of_selects {r : OpcodeRow} {w : Word} (hr : r ∈ opcodeTable) (h : r.selects w = true) :
    ∃ i : Instr, i.wf = true ∧ encode i = w ∧ i.mnemonic = r.mnemonic := by
  simp only [opcodeTable, List.mem_cons, List.not_mem_nil, or_false] at hr
  rcases hr with rfl | rfl | rfl | rfl | rfl | rfl | rfl | rfl | rfl
  · exact ⟨.init, rfl, (OpcodeRow.selects_bare _ 0x01#8 w).mp h, rfl⟩
  · exact ⟨.absorb (lenField w), rfl, (OpcodeRow.selects_len _ 0x02#8 w).mp h, rfl⟩
  · exact ⟨.absorbx (lenField w), rfl, (OpcodeRow.selects_len _ 0x03#8 w).mp h, rfl⟩
  · exact ⟨.importi, rfl, (OpcodeRow.selects_bare _ 0x04#8 w).mp h, rfl⟩
  · exact ⟨.importm, rfl, (OpcodeRow.selects_bare _ 0x05#8 w).mp h, rfl⟩
  · exact ⟨.prime (lenField w), rfl, (OpcodeRow.selects_len _ 0x06#8 w).mp h, rfl⟩
  · exact ⟨.final, rfl, (OpcodeRow.selects_bare _ 0x07#8 w).mp h, rfl⟩
  · obtain ⟨hw, hlegal⟩ := (OpcodeRow.selects_slot _ 0x08#8 w).mp h
    exact ⟨.save (slotField w), hlegal, hw, rfl⟩
  · obtain ⟨hw, hlegal⟩ := (OpcodeRow.selects_slot _ 0x09#8 w).mp h
    exact ⟨.restore (slotField w), hlegal, hw, rfl⟩

/-- A word that selects a row decodes to an instruction with the row's mnemonic. -/
theorem exists_decode_of_selects {r : OpcodeRow} {w : Word} (hr : r ∈ opcodeTable) (h : r.selects w = true) :
    ∃ i, decode w = .ok i ∧ i.mnemonic = r.mnemonic := by
  obtain ⟨i, hwf, rfl, hname⟩ := exists_encode_of_selects hr h
  exact ⟨i, decodeOfEncode i hwf, hname⟩

theorem opcodeTable_mnemonic_inj : ∀ r ∈ opcodeTable, ∀ q ∈ opcodeTable, r.mnemonic = q.mnemonic → r = q := by
  decide

/-- Settles O6: a word that decodes is an encoding, which selects its row, and a word that selects a row is an encoding, which
decodes; two rows of one word have one mnemonic, and no two rows of the map share one. -/
theorem decodeAgreesWithOpcodeTable : Obligations.DecodeAgreesWithOpcodeTable := by
  refine ⟨fun w i hdecode => ?_, fun w r => exists_decode_of_selects, fun w r q hr hq hrw hqw => ?_⟩
  · obtain ⟨hwf, rfl⟩ := encodeOfDecode w i hdecode
    exact exists_row_selects_encode hwf
  · obtain ⟨i, hi, hri⟩ := exists_decode_of_selects hr hrw
    obtain ⟨j, hj, hqj⟩ := exists_decode_of_selects hq hqw
    obtain rfl := Except.ok.inj (hi.symm.trans hj)
    exact opcodeTable_mnemonic_inj r hr q hq (hri.symm.trans hqj)

end Sys2Proof
end

section
/-! PROOF. The absorbing commands as the assembler writes them (spec/30_encoding.md R81): the command word carries the number of
bytes, and the packed words carry the bytes. -/

namespace Sys2Proof.Machine

/-- What a format L command's line assembles to, for a command that every length makes well formed. -/
theorem asmData_delivers {i : BitVec 24 → Instr} {bytes : List Byte} (hle : bytes.length ≤ Config.maxLen)
    (hwf : ∀ len, (i len).wf = true) (hwords : ∀ len, (i len).inlineWords = dataWords len) :
    ∃ w ws, asmData i bytes = .ok (w :: ws) ∧ decode w = .ok (i (BitVec.ofNat 24 bytes.length)) ∧
      ws.length = (i (BitVec.ofNat 24 bytes.length)).inlineWords ∧ inlineData bytes.length ws = bytes := by
  have hlen : (BitVec.ofNat 24 bytes.length).toNat = bytes.length := by
    unfold Config.maxLen at hle
    exact (BitVec.toNat_ofNat _ _).trans (Nat.mod_eq_of_lt (by omega))
  obtain ⟨k, _, hbytes⟩ := wordBytes_packData bytes
  refine ⟨_, _, if_pos hle, decodeOfEncode _ (hwf _), ?_, ?_⟩
  · rw [hwords, dataWords, hlen, packData_length]
  · rw [inlineData, hbytes, List.take_left]

/-- Settles O9: each of the three lines is a format L command. -/
theorem assembledDataIsDelivered : Obligations.AssembledDataIsDelivered := by
  intro bytes hle p hp
  simp only [List.mem_cons, List.not_mem_nil, or_false] at hp
  rcases hp with rfl | rfl | rfl
  all_goals exact asmData_delivers hle (fun _ => rfl) fun _ => rfl

end Sys2Proof.Machine
end

section
/-! PROOF. Frames (spec/10_state.md R21, R24, R27, R30, R31, R36): which command can have written a piece of state, from the frame of
a completed command and that of a fault, which writes the fault registers only. -/

namespace Sys2Proof.Machine

section
variable {i : Instr} {s t : State} {ws : List Word}

/-! A command that completed, read off its frame. -/

theorem Completed.midWriter_of_mid_ne (h : Completed i s ws t) (hne : t.mid ≠ s.mid) :
    ∃ len, i = .absorbx len ∨ i = .prime len := by
  obtain ⟨_, _, _, _, rfl, hmid, _⟩ := h.frame
  exact hmid hne

theorem Completed.final_of_digest_ne (h : Completed i s ws t) (hne : t.digest ≠ s.digest) : i = .final := by
  obtain ⟨_, _, _, _, rfl, _, hdigest, _⟩ := h.frame
  exact hdigest hne

theorem Completed.save_of_slots_ne (h : Completed i s ws t) {j : Fin Config.nslot} (hne : t.slots[j] ≠ s.slots[j]) :
    ∃ slot, i = .save slot ∧ slot.toNat = j.val := by
  obtain ⟨_, _, _, _, rfl, _, _, hslots, _⟩ := h.frame
  exact hslots j hne

theorem Completed.writer_of_live_ne (h : Completed i s ws t) (hne : t.live ≠ s.live) :
    i ≠ .final ∧ ∀ slot, i ≠ .save slot := by
  obtain ⟨_, _, _, _, rfl, _, _, _, hlive⟩ := h.frame
  exact hlive hne

theorem Completed.faultRegisters_eq (h : Completed i s ws t) :
    t.fault = s.fault ∧ t.cause = s.cause ∧ t.fcmd = s.fcmd ∧ t.fpc = s.fpc := by
  obtain ⟨_, _, _, _, rfl, _⟩ := h.frame
  exact ⟨rfl, rfl, rfl, rfl⟩

theorem Completed.draws_eq (h : Completed i s ws t) : t.draws = s.draws := by
  obtain ⟨_, _, _, _, rfl, _⟩ := h.frame
  rfl

/-! A meaning that answered a next state, completing or faulting. -/

theorem exec_mid_eq (h : exec i s = .next t) (hi : ∀ len, i ≠ .absorbx len ∧ i ≠ .prime len) : t.mid = s.mid := by
  obtain ⟨_, _, _, _, hd | ⟨_, _, rfl⟩⟩ := exec_next h
  · by_contra hne
    obtain ⟨len, hlen⟩ := hd.midWriter_of_mid_ne hne
    obtain ⟨hx, hp⟩ := hi len
    exact hlen.elim hx hp
  · rfl

theorem exec_digest_eq (h : exec i s = .next t) (hi : i ≠ .final) : t.digest = s.digest := by
  obtain ⟨_, _, _, _, hd | ⟨_, _, rfl⟩⟩ := exec_next h
  · exact by_contra fun hne => hi (hd.final_of_digest_ne hne)
  · rfl

theorem exec_slot_eq (h : exec i s = .next t) {j : Fin Config.nslot} (hi : ∀ slot, i = .save slot → slot.toNat ≠ j.val) :
    t.slots[j] = s.slots[j] := by
  obtain ⟨_, _, _, _, hd | ⟨_, _, rfl⟩⟩ := exec_next h
  · by_contra hne
    obtain ⟨slot, hsave, hslot⟩ := hd.save_of_slots_ne hne
    exact hi slot hsave hslot
  · rfl

theorem exec_slots_eq (h : exec i s = .next t) (hi : ∀ slot, i ≠ .save slot) : t.slots = s.slots :=
  Vector.ext fun j hj => exec_slot_eq h (j := ⟨j, hj⟩) fun slot hsave => absurd hsave (hi slot)

theorem exec_live_eq (h : exec i s = .next t) (hi : i = .final ∨ ∃ slot, i = .save slot) : t.live = s.live := by
  obtain ⟨_, _, _, _, hd | ⟨_, _, rfl⟩⟩ := exec_next h
  · by_contra hne
    obtain ⟨hfinal, hsave⟩ := hd.writer_of_live_ne hne
    exact hi.elim hfinal fun ⟨slot, hslot⟩ => hsave slot hslot
  · rfl

/-- The draw counter is the model's own (log entry 3). -/
theorem exec_draws_eq (h : exec i s = .next t) : t.draws = s.draws := by
  obtain ⟨_, _, _, _, hd | ⟨_, _, rfl⟩⟩ := exec_next h
  · exact hd.draws_eq
  · rfl

theorem exec_streamByte_eq (h : exec i s = .next t) (addr : Nat) : t.streamByte addr = s.streamByte addr := by
  rw [State.streamByte, exec_stream_eq h, State.streamByte]

/-- R33: only a fault writes the fault registers. -/
theorem exec_faultRegisters_eq (h : exec i s = .next t) (hf : t.fault = false) :
    t.cause = s.cause ∧ t.fcmd = s.fcmd ∧ t.fpc = s.fpc := by
  obtain ⟨_, _, _, _, hd | ⟨_, _, rfl⟩⟩ := exec_next h
  · obtain ⟨_, hregisters⟩ := hd.faultRegisters_eq
    exact hregisters
  · cases hf

end

/-- Settles O39: the five commands are none of those that write `MID`, `DIGEST` or a slot. -/
theorem frameOfLiveCommands : Obligations.FrameOfLiveCommands := by
  intro s t i hi h
  have hother : (∀ len, i ≠ .absorbx len ∧ i ≠ .prime len) ∧ i ≠ .final ∧ ∀ slot, i ≠ .save slot := by
    rcases hi with rfl | ⟨_, rfl⟩ | rfl | rfl | ⟨_, rfl⟩ <;> simp
  obtain ⟨hmid, hfinal, hsave⟩ := hother
  exact ⟨exec_mid_eq h hmid, exec_digest_eq h hfinal, exec_slots_eq h hsave, exec_draws_eq h, exec_streamByte_eq h,
    exec_faultRegisters_eq h⟩

/-- Settles O40: the two commands are none of those that write `DIGEST` or a slot. -/
theorem frameOfExportCommands : Obligations.FrameOfExportCommands := by
  intro s t i hi h
  have hother : i ≠ .final ∧ ∀ slot, i ≠ .save slot := by
    obtain ⟨_, rfl | rfl⟩ := hi <;> simp
  obtain ⟨hfinal, hsave⟩ := hother
  exact ⟨exec_digest_eq h hfinal, exec_slots_eq h hsave, exec_draws_eq h, exec_streamByte_eq h, exec_faultRegisters_eq h⟩

/-- A `SAVE` of a slot that exists raises nothing, so a next state is one of completing. -/
theorem completed_of_exec_save {s t : State} {slot : BitVec 8} (hlegal : slotLegal slot = true)
    (h : exec (.save slot) s = .next t) : ∃ ws, Completed (.save slot) s ws t := by
  obtain ⟨_, ws, _, _, hd | ⟨_, ⟨hnone, _⟩, _⟩⟩ := exec_next h
  · exact ⟨ws, hd⟩
  · obtain ⟨j, hj⟩ := slotIndex_of_legal hlegal
    rw [hj] at hnone
    cases hnone

/-- Settles O41: `FINAL` and such a `SAVE` complete, which keeps the fault registers, and neither writes what the other does. -/
theorem frameOfFinalAndSave : Obligations.FrameOfFinalAndSave := by
  constructor
  case left =>
    intro s t h
    have hd : Completed .final s [] t := eq_of_exec_final h
    exact ⟨exec_live_eq h (.inl rfl), exec_mid_eq h (by simp), exec_slots_eq h (by simp), exec_draws_eq h,
      exec_streamByte_eq h, hd.faultRegisters_eq⟩
  case right =>
    intro s t slot hlegal h
    obtain ⟨ws, hd⟩ := completed_of_exec_save hlegal h
    obtain ⟨hfault, hcause, hfcmd, hfpc⟩ := hd.faultRegisters_eq
    refine ⟨exec_live_eq h (.inr ⟨slot, rfl⟩), exec_mid_eq h (by simp), exec_digest_eq h (by simp), exec_draws_eq h,
      exec_streamByte_eq h, hfault, hcause, hfcmd, hfpc, fun j hj => exec_slot_eq h fun slot' hslot => ?_⟩
    obtain rfl := Instr.save.inj hslot
    exact hj.symm

/-! The same, of a step: a piece of state that changed was written by the command at `pc`, which completed. -/

/-- Settles O42: a fault leaves `MID`, and of the commands only `ABSORBX` and `PRIME` write it. -/
theorem midIsWrittenOnlyByExports : Obligations.MidIsWrittenOnlyByExports := by
  intro s t h hne
  obtain ⟨w, hw, ⟨i, ws, hi, hd⟩ | ⟨f, rfl⟩⟩ := step_completes_or_raises h
  · obtain ⟨len, rfl | rfl⟩ := hd.midWriter_of_mid_ne hne
    · exact ⟨w, len, hw, .inl hi⟩
    · exact ⟨w, len, hw, .inr hi⟩
  · exact absurd rfl hne

/-- Settles O43: a fault leaves `DIGEST`, and of the commands only `FINAL` writes it. -/
theorem digestIsWrittenOnlyByFinal : Obligations.DigestIsWrittenOnlyByFinal := by
  intro s t h hne
  obtain ⟨w, hw, ⟨i, ws, hi, hd⟩ | ⟨f, rfl⟩⟩ := step_completes_or_raises h
  · obtain rfl := hd.final_of_digest_ne hne
    exact ⟨w, hw, hi⟩
  · exact absurd rfl hne

/-- Settles O44: a fault leaves the slots, and of the commands only `SAVE` writes one, the one of its number. -/
theorem slotIsWrittenOnlyBySave : Obligations.SlotIsWrittenOnlyBySave := by
  intro s t j h hne
  obtain ⟨w, hw, ⟨i, ws, hi, hd⟩ | ⟨f, rfl⟩⟩ := step_completes_or_raises h
  · obtain ⟨slot, rfl, hslot⟩ := hd.save_of_slots_ne hne
    exact ⟨w, slot, hw, hi, hslot⟩
  · exact absurd rfl hne

/-- Settles O45: a fault leaves the live state, and so do `FINAL` and `SAVE`. -/
theorem liveIsWrittenOnlyBy : Obligations.LiveIsWrittenOnlyBy := by
  intro s t h hne
  obtain ⟨w, hw, ⟨i, ws, hi, hd⟩ | ⟨f, rfl⟩⟩ := step_completes_or_raises h
  · exact ⟨w, i, hw, hi, hd.writer_of_live_ne hne⟩
  · exact absurd rfl hne

end Sys2Proof.Machine
end

section
/-! PROOF. What a step cannot read or write: `DIGEST` influences no step (spec/10_state.md R30), and a saved state
or a snapshot outlives every run without a command that writes it (spec/44_clone.md R184, spec/42_midstate.md R149). -/

namespace Sys2Proof.Machine

/-- A command that completes does the same with another `DIGEST`; `FINAL` writes its own. -/
theorem Completed.withDigest {i : Instr} {s t : State} {ws : List Word} (h : Completed i s ws t)
    (d : Option Words8) : ∃ d', Completed i { s with digest := d } ws { t with digest := d' } := by
  cases i with
  | init | prime len => subst h; exact ⟨d, rfl⟩
  | absorb len | absorbx len => obtain ⟨hfits, rfl⟩ := h; exact ⟨d, hfits, rfl⟩
  | importi => obtain ⟨len, words, hoperands, hlegal, rfl⟩ := h; exact ⟨d, len, words, hoperands, hlegal, rfl⟩
  | importm =>
    obtain ⟨len, words, hoperand, hmid, hlegal, rfl⟩ := h
    exact ⟨d, len, words, hoperand, hmid, hlegal, rfl⟩
  | final => subst h; exact ⟨_, rfl⟩
  | save slot => obtain ⟨k, hk, rfl⟩ := h; exact ⟨d, k, hk, rfl⟩
  | restore slot => obtain ⟨k, st, hk, hfull, rfl⟩ := h; exact ⟨d, k, st, hk, hfull, rfl⟩

/-- The conditions of the faults do not speak of `DIGEST`. -/
theorem Raises.withDigest {i : Instr} {s : State} {ws : List Word} {f : EngineFault} (h : Raises i s ws f)
    (d : Option Words8) : Raises i { s with digest := d } ws f := by
  cases i <;> exact h

/-- Settles O47: the word at `pc` is the same, and with it the fault or the effect of the command. -/
theorem digestInfluencesNoStep : Obligations.DigestInfluencesNoStep := by
  intro s t d h
  obtain ⟨hf, w, hw, ⟨_, he, rfl⟩ | ⟨i, hi, hx⟩⟩ := step_next h
  · exact ⟨d, step_of_decode_error (s := { s with digest := d }) hf hw he⟩
  · have hstep := step_of_decode_ok (s := { s with digest := d }) hf hw hi
    obtain ⟨w', ws, hc, hn, hd | ⟨f, hr, rfl⟩⟩ := exec_next hx
    · obtain ⟨d', hd'⟩ := hd.withDigest d
      exact ⟨d', hstep.trans (exec_of_completed hc hn hd')⟩
    · exact ⟨d, hstep.trans (exec_of_raises hc hn (hr.withDigest d))⟩

/-- A piece of state that no admitted command writes is the same after any run. -/
theorem eq_of_runsTo {α : Type} {allowed : Instr → Prop} {s t : State} (piece : State → α)
    (hstep : ∀ s t, step s = .next t → (∀ w i, fetch s = some w → decode w = .ok i → allowed i) → piece t = piece s)
    (h : RunsTo allowed s t) : piece t = piece s := by
  induction h with
  | refl s => rfl
  | step s t u hst hallowed _ ih => exact ih.trans (hstep s t hst hallowed)

/-- R184: no run without a `SAVE` of the slot changes it. -/
theorem RunsTo.slot_eq {s t : State} {slot : BitVec 8} {j : Fin 4} (hslot : slot.toNat = j.val)
    (h : RunsTo (fun i => i ≠ .save slot) s t) : t.slots[j] = s.slots[j] := by
  refine eq_of_runsTo (fun s => s.slots[j]) (fun s t hst hallowed => ?_) h
  by_contra hne
  obtain ⟨w, slot', hw, hi, hslot'⟩ := slotIsWrittenOnlyBySave s t j hst hne
  obtain rfl := BitVec.eq_of_toNat_eq (hslot'.trans hslot.symm)
  exact hallowed w _ hw hi rfl

/-- R149: no run without an `ABSORBX` or a `PRIME` changes `MID`. -/
theorem RunsTo.mid_eq {s t : State} (h : RunsTo (fun i => ∀ len, i ≠ .absorbx len ∧ i ≠ .prime len) s t) :
    t.mid = s.mid := by
  refine eq_of_runsTo State.mid (fun s t hst hallowed => ?_) h
  by_contra hne
  obtain ⟨w, len, hw, hi | hi⟩ := midIsWrittenOnlyByExports s t hst hne
  · exact (hallowed w _ hw hi len).1 rfl
  · exact (hallowed w _ hw hi len).2 rfl

/-- Settles O48: the slot still holds the state when `RESTORE` reads it. -/
theorem slotsAreIndependent : Obligations.SlotsAreIndependent := by
  intro s t w slot j st hslot hfull hrun hc
  exact ⟨_, exec_restore_of_some hc hslot ((hrun.slot_eq hslot).trans hfull), rfl⟩

/-- Settles O49: `MID` still holds the snapshot when `IMPORTM` reads it, and the length is legal. -/
theorem snapshotIsImmutable : Obligations.SnapshotIsImmutable := by
  intro s t w hi lo words hmid hrun hc haligned hle
  have hmid' : t.mid = some words := hrun.mid_eq.trans hmid
  obtain ⟨_, hresult⟩ := importmResult
  obtain ⟨_, hsnapshot⟩ := hresult t w hi lo hc
  obtain ⟨_, _, hlegal⟩ := hsnapshot words hmid'
  exact ⟨_, hlegal haligned hle, rfl, hmid'⟩

end Sys2Proof.Machine
end

section
/-! PROOF. The invariant (spec/10_state.md R26, R33): it holds after reset, every step keeps it, and the host cannot break it. -/

namespace Sys2Proof.Machine

/-! Good Hasher States (R26): the initial one, what Absorb makes within the counter bound, what an import of a legal length makes. -/

theorem Hasher.initial_good : Hasher.initial.Good := by decide

theorem Hasher.Good.absorb {st : Hasher} {D : List Byte} (h : st.Good)
    (hle : st.count.toNat + D.length ≤ Config.maxCount) : (st.absorb D).Good := by
  obtain ⟨hbuf, _⟩ := h
  obtain ⟨hlength, hcount, _⟩ := absorbKeepsLengthInvariant st D hbuf hle
  exact ⟨hlength, hcount ▸ hle⟩

theorem Hasher.imported_good {len : Count} (words : Words8) (h : importLengthFault len = none) :
    (Hasher.imported len words).Good := by
  obtain ⟨hfault, _⟩ | ⟨hfault, _⟩ | ⟨_, haligned, hle⟩ := importLengthFault_cases len
  · rw [h] at hfault; cases hfault
  · rw [h] at hfault; cases hfault
  · exact ⟨haligned.symm, hle⟩

/-- R26 for the live state: a command that completes leaves a good one. -/
theorem Completed.live_good {i : Instr} {s t : State} {ws : List Word} (h : Completed i s ws t)
    (hn : ws.length = i.inlineWords) (hs : s.Inv) : t.live.Good := by
  have absorbs {st : Hasher} {len : BitVec 24} (hst : st.Good) (hlen : ws.length = dataWords len)
      (hle : st.count.toNat + len.toNat ≤ Config.maxCount) : (st.absorb (inlineData len.toNat ws)).Good :=
    hst.absorb (by rwa [inlineData_length_of_dataWords hlen])
  have fits {st : Hasher} {len : BitVec 24} (hfits : st.overflows len = false) :
      st.count.toNat + len.toNat ≤ Config.maxCount := by
    simpa only [Hasher.overflows, decide_eq_false_iff_not, Nat.not_lt] using hfits
  cases i with
  | init => subst h; exact Hasher.initial_good
  | absorb len | absorbx len => obtain ⟨hfits, rfl⟩ := h; exact absorbs hs.live hn (fits hfits)
  | importi => obtain ⟨_, words, _, hlegal, rfl⟩ := h; exact Hasher.imported_good words hlegal
  | importm => obtain ⟨_, words, _, _, hlegal, rfl⟩ := h; exact Hasher.imported_good words hlegal
  | prime len =>
    subst h
    refine absorbs Hasher.initial_good hn ?_
    have hlen := len.isLt
    show 0 + len.toNat ≤ 2 ^ 61 - 1
    omega
  | final => subst h; exact hs.live
  | save slot => obtain ⟨_, _, rfl⟩ := h; exact hs.live
  | restore slot => obtain ⟨k, st, _, hfull, rfl⟩ := h; exact hs.slots k st hfull

/-- A command that completes leaves a slot as it was, or copies the live state into it. -/
theorem Completed.slot_cases {i : Instr} {s t : State} {ws : List Word} (h : Completed i s ws t)
    (j : Fin Config.nslot) : t.slots[j] = s.slots[j] ∨ t.slots[j] = some s.live := by
  by_cases hj : t.slots[j] = s.slots[j]
  · exact .inl hj
  · obtain ⟨slot, rfl, hslot⟩ := h.save_of_slots_ne hj
    obtain ⟨k, hk, rfl⟩ := h
    obtain rfl : k = j := Fin.ext ((slotIndex_eq_some.mp hk).symm.trans hslot)
    exact .inr (Vector.getElem_set_self k.isLt)

/-- R26, R33 for a command that completes. -/
theorem Completed.inv {i : Instr} {s t : State} {w : Word} {ws : List Word} (h : Completed i s ws t)
    (hc : s.CommandAt w ws) (hn : ws.length = i.inlineWords) (hf : s.fault = false) (hs : s.Inv) : t.Inv where
  live := h.live_good hn hs
  slots := fun j st hst => by
    rcases h.slot_cases j with hj | hj
    · exact hs.slots j st (hj ▸ hst)
    · obtain rfl := Option.some.inj (hj.symm.trans hst)
      exact hs.live
  noFault := fun _ => by
    obtain ⟨_, _, _, _, rfl, _⟩ := h.frame
    exact hs.noFault hf
  recorded := fun ht => by rw [h.fault_eq, hf] at ht; cases ht
  pcInStream := by
    have hlt := hc.lt
    rw [h.pc_eq, h.stream_eq]
    omega

/-- R33 for a fault: the registers record the command word at `pc`, and nothing else changes. -/
theorem State.Inv.raise {s : State} {w : Word} (hs : s.Inv) (f : EngineFault) (hw : s.stream[s.pc]? = some w) :
    (s.raise f w).Inv where
  live := hs.live
  slots := hs.slots
  noFault := nofun
  recorded := fun _ => ⟨⟨f, rfl⟩, rfl, hw⟩
  pcInStream := hs.pcInStream

/-- Settles O51: an illegal word and a fault of a command raise, and any other step completes a command. -/
theorem stepKeepsInvariant : Obligations.StepKeepsInvariant := by
  intro s t hs h
  obtain ⟨hf, w, hw, ⟨_, _, rfl⟩ | ⟨i, _, hx⟩⟩ := step_next h
  · exact hs.raise .illegalCommand hw
  · obtain ⟨w', ws, hc, hn, hd | ⟨f, _, rfl⟩⟩ := exec_next hx
    · exact hd.inv hc hn hf hs
    · exact hs.raise f hc.fetch

/-- R39: what reset leaves, with any stream presented. -/
theorem State.resetTo_inv (s : State) (stream : List Word) : (s.resetTo stream).Inv where
  live := Hasher.initial_good
  slots := fun j st hst => by rw [s.resetTo_slot stream j] at hst; cases hst
  noFault := fun _ => ⟨rfl, rfl, rfl⟩
  recorded := nofun
  pcInStream := Nat.zero_le _

/-- Settles O50: the reset state is a reset to the empty stream. -/
theorem resetMeetsInvariant : Obligations.ResetMeetsInvariant :=
  ⟨State.reset.resetTo_inv [], State.resetTo_inv⟩

/-- R55, R58: a host read moves at most the draw counter. -/
theorem hostRead_snd (offset : Nat) (s : State) : ∃ draws, (hostRead offset s).2 = { s with draws := draws } := by
  unfold hostRead
  split
  · exact ⟨s.draws, rfl⟩
  · exact ⟨s.draws + 1, rfl⟩

/-- Settles O56: the draw counter put back, a read leaves the state as it was. -/
theorem hostAccessHasNoSideEffect : Obligations.HostAccessHasNoSideEffect := by
  refine ⟨fun offset s => ?_, hostWrite_eq⟩
  obtain ⟨draws, hread⟩ := hostRead_snd offset s
  rw [hread]

/-- The invariant does not speak of the draw counter. -/
theorem State.Inv.withDraws {s : State} (hs : s.Inv) (draws : Nat) : State.Inv { s with draws := draws } where
  live := hs.live
  slots := hs.slots
  noFault := hs.noFault
  recorded := hs.recorded
  pcInStream := hs.pcInStream

/-- Settles O52: by induction on how the state was reached. -/
theorem reachableStatesMeetInvariant : Obligations.ReachableStatesMeetInvariant := by
  intro s hs
  induction hs with
  | reset draws stream => exact (State.reset.resetTo_inv stream).withDraws draws
  | reset_again s stream _ _ => exact s.resetTo_inv stream
  | step s t _ hstep ih => exact stepKeepsInvariant s t ih hstep
  | hostRead s offset _ ih =>
    obtain ⟨draws, hread⟩ := hostRead_snd offset s
    rw [hread]
    exact ih.withDraws draws
  | hostWrite s offset value _ ih => exact ih

end Sys2Proof.Machine
end

section
/-! PROOF. Splits of a message (spec/41_init_absorb.md R127, R128), its digest (spec/43_finalize.md R166), and an import in place of
absorbing whole blocks (spec/42_midstate.md R147). -/

namespace Sys2Proof.Machine

/-- Settles O16: what the first Absorb leaves over goes before `B`, and the counters add up, mod 2^64 in any case. -/
theorem absorbSplitsAnywhere : Obligations.AbsorbSplitsAnywhere := by
  intro st A B _ _
  have hh : ((st.absorb A).absorb B).h = (st.absorb (A ++ B)).h := by
    simp only [Hasher.absorb, compressAll_resume, List.append_assoc]
  have hbuf : ((st.absorb A).absorb B).buf = (st.absorb (A ++ B)).buf := by
    simp only [Hasher.absorb, drop_whole_resume, List.append_assoc]
  have hcount : ((st.absorb A).absorb B).count = (st.absorb (A ++ B)).count := by
    apply BitVec.eq_of_toNat_eq
    simp only [Hasher.absorb, BitVec.toNat_ofNat, Nat.mod_add_mod, List.length_append, Nat.add_assoc]
  exact (Hasher.mk.injEq ..).mpr ⟨hh, hbuf, hcount⟩

/-- R128: the initial state stands for the empty message. -/
theorem Hasher.initial_holds : Hasher.initial.Holds [] := ⟨rfl, (compressAll_nil iv).symm, rfl⟩

/-- R128 from the start: absorbing `m` from the initial state gives the state that stands for `m`. -/
theorem Hasher.initial_absorb_holds {m : List Byte} (h : m.length ≤ Config.maxCount) :
    (Hasher.initial.absorb m).Holds m :=
  Hasher.initial_holds.absorb (by simpa using h)

/-- Settles O18: the empty message leaves `IV` and no bytes, and Absorb extends the message it finds. -/
theorem absorbExtendsTheMessage : Obligations.AbsorbExtendsTheMessage :=
  ⟨Hasher.initial_holds, fun _ _ _ => Hasher.Holds.absorb⟩

/-- R166 after an import: compressing `S`, then what it left over with the padding, is compressing `S` with the padding. -/
theorem Hasher.imported_absorb_finalDigest (h : Words8) (L : Count) (S : List Byte) :
    ((Hasher.imported L h).absorb S).finalDigest
      = compressAll h (S ++ pad (BitVec.ofNat 64 (L.toNat + S.length))) :=
  compressAll_resume h S _

/-- Settles O19: the digest of a state that stands for `m` is SHA-256 of `m`, and an imported state compresses on from its
words. -/
theorem finalGivesSha256 : Obligations.FinalGivesSha256 :=
  ⟨fun _ _ _ hc hm _ => ⟨_, exec_final hc, congrArg some hm.finalDigest_eq⟩,
    fun h L S _ _ => Hasher.imported_absorb_finalDigest h L S⟩

/-- R147: absorbing whole blocks from the initial state leaves what an import of the accumulator leaves. -/
theorem Hasher.imported_eq_absorb {P : List Byte} (h : P.length % 64 = 0) :
    Hasher.imported (BitVec.ofNat 64 P.length) (Hasher.initial.absorb P).h = Hasher.initial.absorb P := by
  have hbuf : (Hasher.initial.absorb P).buf = [] := by
    apply List.eq_nil_of_length_eq_zero
    rw [Hasher.absorb_buf_length]
    exact (congrArg (· % 64) (Nat.zero_add _)).trans h
  have hcount : (Hasher.initial.absorb P).count = BitVec.ofNat 64 P.length :=
    congrArg (BitVec.ofNat 64) (Nat.zero_add _)
  rw [Hasher.imported, ← hbuf, ← hcount]

theorem importiOperands_length {ws : List Word} {p : Count × Words8} (h : importiOperands ws = some p) :
    ws.length = 10 := by
  unfold importiOperands at h
  split at h
  · rfl
  · cases h

/-- Settles O20: the import is legal and makes the state of having absorbed `P`, which `S` then extends. -/
theorem importEqualsAbsorbedPrefix : Obligations.ImportEqualsAbsorbedPrefix := by
  intro s w ws P L h hwhole hle hh hL hc hoperands
  subst hh hL
  have hlength : (BitVec.ofNat 64 P.length).toNat = P.length :=
    (BitVec.toNat_ofNat _ _).trans (Nat.mod_eq_of_lt (by omega))
  have hlegal : importLengthFault (BitVec.ofNat 64 P.length) = none :=
    importLengthFault_of_legal (by rwa [hlength]) (by rwa [hlength])
  have hlive := Hasher.imported_eq_absorb hwhole
  refine ⟨_, exec_of_completed (i := .importi) hc (importiOperands_length hoperands) ⟨_, _, hoperands, hlegal, rfl⟩,
    hlive, fun S hS => ?_⟩
  have hlengthPS : (P ++ S).length ≤ Config.maxCount := by rwa [List.length_append]
  have hsplit : (Hasher.initial.absorb P).absorb S = Hasher.initial.absorb (P ++ S) :=
    absorbSplitsAnywhere _ P S rfl ((Nat.zero_add P.length).symm ▸ hS)
  rw [State.advance_live, State.setLive_live, hlive, hsplit]
  exact ⟨rfl, (Hasher.initial_absorb_holds hlengthPS).finalDigest_eq⟩

end Sys2Proof.Machine
end

section
/-! PROOF. Which steps there are and which faults they raise (spec/10_state.md R29, spec/60_exceptions.md R201, R202, R206). -/

namespace Sys2Proof.Machine

/-- Settles O32: what `step` does on a word that decodes. -/
theorem stepRunsTheDecodedCommand : Obligations.StepRunsTheDecodedCommand := fun _ _ _ => step_of_decode_ok

/-! Each state without a step answers its own reason. -/

theorem step_of_fault {s : State} (h : s.fault = true) : step s = .fault .halted := by
  simp only [step, h, if_true]

theorem step_of_ended {s : State} (h : s.Ended) : step s = .fault .runEnded := by
  obtain ⟨hpc, hf⟩ := h
  have hfetch : fetch s = none := List.getElem?_eq_none hpc.ge
  simp only [step, hf, hfetch, Bool.false_eq_true, if_false]

theorem step_of_waiting {s : State} (h : s.Waiting) : step s = .fault .awaitingWords := by
  obtain ⟨hf, w, i, hw, hi, hshort⟩ := h
  rw [step_of_decode_ok hf hw hi]
  obtain ⟨_, hx⟩ | ⟨_, _, _, _, hinside, _⟩ := exec_cases i s
  · exact hx
  · omega

/-- From inside the stream there is nothing else: the engine is halted, has ended, waits, or has a next state. -/
theorem step_outcomes {s : State} (hpc : s.pc ≤ s.stream.length) :
    (s.fault = true ∧ step s = .fault .halted) ∨ (s.Ended ∧ step s = .fault .runEnded) ∨
      (s.Waiting ∧ step s = .fault .awaitingWords) ∨ ∃ t, step s = .next t := by
  obtain ⟨hend | hwait | hf, _⟩ | ⟨_, t, ht, _⟩ := atRest_or_step hpc
  · exact .inr (.inl ⟨hend, step_of_ended hend⟩)
  · exact .inr (.inr (.inl ⟨hwait, step_of_waiting hwait⟩))
  · exact .inl ⟨hf, step_of_fault hf⟩
  · exact .inr (.inr (.inr ⟨t, ht⟩))

/-- Settles O34: the reasons differ from each other and from a next state, so the answer of `step` tells which of the four holds. -/
theorem noStepExactlyWhen : Obligations.NoStepExactlyWhen := by
  intro s hinv
  have houtcomes := step_outcomes hinv.pcInStream
  refine ⟨⟨fun h => ?halted, step_of_fault⟩, ⟨fun h => ?ended, step_of_ended⟩, ⟨fun h => ?waiting, step_of_waiting⟩,
    fun ⟨t, h⟩ => ?none, fun ⟨hf, hend, hwait⟩ => ?next⟩
  case halted | ended | waiting => simpa [h] using houtcomes
  case none =>
    obtain ⟨hf, _⟩ := step_next h
    refine ⟨hf, fun hend => ?_, fun hwait => ?_⟩
    · rw [step_of_ended hend] at h; cases h
    · rw [step_of_waiting hwait] at h; cases h
  case next => simpa [hf, hend, hwait] using houtcomes

/-- `L` is the length that the import at `pc` carries in its in-line words. -/
def ImportLength (s : State) (w : Word) (L : Count) : Prop :=
  ∃ ws, s.CommandAt w ws ∧ ((decode w = .ok .importi ∧ ∃ h, importiOperands ws = some (L, h)) ∨
    (decode w = .ok .importm ∧ importmOperand ws = some L))

/-- R201: the row of a fault, the commands that raise it and its condition, for the command word `w`. -/
def FaultRow (s : State) (w : Word) : EngineFault → Prop
  | .illegalCommand => ∃ e, decode w = .error e
  | .unalignedImport => ∃ L, ImportLength s w L ∧ L.toNat % 64 ≠ 0
  | .lengthOverflow => (∃ len, (decode w = .ok (.absorb len) ∨ decode w = .ok (.absorbx len)) ∧
      Config.maxCount < s.live.count.toNat + len.toNat) ∨ ∃ L, ImportLength s w L ∧ Config.maxCount < L.toNat
  | .invalidSource => (decode w = .ok .importm ∧ s.mid = none) ∨
      ∃ slot, ∃ j : Fin 4, decode w = .ok (.restore slot) ∧ slot.toNat = j.val ∧ s.slots[j] = none

theorem ImportLength.faultRow {s : State} {w : Word} {L : Count} {f : EngineFault} (hL : ImportLength s w L)
    (hf : importLengthFault L = some f) : FaultRow s w f := by
  obtain ⟨hfault, hunaligned⟩ | ⟨hfault, _, hlong⟩ | ⟨hfault, _⟩ := importLengthFault_cases L
  all_goals
    rw [hf] at hfault
    cases hfault
  · exact ⟨L, hL, hunaligned⟩
  · exact .inr ⟨L, hL, hlong⟩

/-- A slot number that was decoded names a slot (R71). -/
theorem slotIndex_ne_none_of_legal {slot : BitVec 8} (h : slotLegal slot = true) : slotIndex slot ≠ none := by
  obtain ⟨j, hj⟩ := slotIndex_of_legal h
  rw [hj]
  exact nofun

/-- What a decoded command raises stands in the command's row. -/
theorem Raises.faultRow {i : Instr} {s : State} {w : Word} {ws : List Word} {f : EngineFault} (h : Raises i s ws f)
    (hc : s.CommandAt w ws) (hi : decode w = .ok i) : FaultRow s w f := by
  obtain ⟨hwf, _⟩ := encodeOfDecode w i hi
  cases i with
  | init | prime len | final => cases h
  | absorb len => obtain ⟨hover, rfl⟩ := h; exact .inl ⟨len, .inl hi, (Hasher.overflows_iff _ _).mp hover⟩
  | absorbx len => obtain ⟨hover, rfl⟩ := h; exact .inl ⟨len, .inr hi, (Hasher.overflows_iff _ _).mp hover⟩
  | importi =>
    obtain ⟨L, words, hoperands, hf⟩ := h
    exact ImportLength.faultRow ⟨ws, hc, .inl ⟨hi, words, hoperands⟩⟩ hf
  | importm =>
    obtain ⟨L, hoperand, ⟨hmid, rfl⟩ | ⟨_, hf⟩⟩ := h
    · exact .inl ⟨hi, hmid⟩
    · exact ImportLength.faultRow ⟨ws, hc, .inr ⟨hi, hoperand⟩⟩ hf
  | save slot =>
    obtain ⟨hnone, _⟩ := h
    exact absurd hnone (slotIndex_ne_none_of_legal hwf)
  | restore slot =>
    obtain ⟨hnone, _⟩ | ⟨j, hj, hempty, rfl⟩ := h
    · exact absurd hnone (slotIndex_ne_none_of_legal hwf)
    · exact .inr ⟨slot, j, hi, slotIndex_eq_some.mp hj, hempty⟩

/-- A step that ends with `FAULT = 1` raised a fault under the condition of its row. -/
theorem faultRow_of_step_fault {s t : State} (h : step s = .next t) (ht : t.fault = true) :
    ∃ w f, s.stream[s.pc]? = some w ∧ t = s.raise f w ∧ FaultRow s w f := by
  obtain ⟨hf, w, hw, ⟨e, he, ht'⟩ | ⟨i, hi, hx⟩⟩ := step_next h
  · exact ⟨w, .illegalCommand, hw, ht', e, he⟩
  · obtain ⟨w', ws, hc, _, hd | ⟨f, hr, ht'⟩⟩ := exec_next hx
    · rw [hd.fault_eq, hf] at ht
      cases ht
    · obtain rfl := Option.some.inj (hw.symm.trans hc.fetch)
      exact ⟨w, f, hw, ht', hr.faultRow hc hi⟩

/-- Settles O36: the fault that was raised gives the cause code, and its row the condition. -/
theorem whoRaisesWhichFault : Obligations.WhoRaisesWhichFault := by
  intro s t h ht
  obtain ⟨w, f, hw, rfl, hrow⟩ := faultRow_of_step_fault h ht
  refine ⟨w, hw, rfl, rfl, ?_⟩
  cases f with
  | illegalCommand => exact .inl ⟨rfl, hrow⟩
  | unalignedImport => exact .inr (.inl ⟨rfl, hrow⟩)
  | lengthOverflow => exact .inr (.inr (.inl ⟨rfl, hrow⟩))
  | invalidSource => exact .inr (.inr (.inr ⟨rfl, hrow⟩))

end Sys2Proof.Machine
end

section
/-! PROOF. The host's view (spec/10_state.md R21, R31, R35): the registers show of the Hasher States only `COUNT` and the valid
bits, and a read of an empty register file is a draw of the free value (log entry 3). -/

namespace Sys2Proof.Machine

/-- Every register is one of `STATUS`, `FCMD`, `FPC`, the two halves of `COUNT`, a word of `DIGEST` or of `MID`, or a constant. -/
theorem hostRegister_congr {s t : State} (offset : Nat) (hstatus : s.status = t.status) (hfcmd : s.fcmd = t.fcmd)
    (hfpc : s.fpc = t.fpc) (hcount : s.live.count = t.live.count) (hdigest : s.digest = t.digest)
    (hmid : s.mid = t.mid) : hostRegister offset s = hostRegister offset t := by
  simp only [hostRegister, State.countHi, State.countLo, hstatus, hfcmd, hfpc, hcount, hdigest, hmid]

/-- Settles O57: `STATUS` is made of `COUNT`, the valid bits and fields that are the same, and so is every other register. -/
theorem hostSeesNoHasherState : Obligations.HostSeesNoHasherState := by
  intro s st slots offset hcount hslots
  have hvalid : State.slotValidBits { s with live := st, slots := slots } = s.slotValidBits := by
    simp only [State.slotValidBits, State.slotValid, hslots]
  have hfill : st.fill = s.live.fill := by rw [Hasher.fill, hcount, Hasher.fill]
  have hstatus : State.status { s with live := st, slots := slots } = s.status := by
    simp only [State.status, hvalid, Hasher.aligned, hfill, State.midValid, State.digestValid]
  exact hostRegister_congr offset hstatus rfl rfl hcount rfl rfl

/-- A read of a word the spec leaves unspecified draws the next free value. -/
theorem hostRead_of_none {offset : Nat} {s : State} (h : hostRegister offset s = none) :
    hostRead offset s = (Config.freeWord s.draws, { s with draws := s.draws + 1 }) := by
  simp only [hostRead, h]

/-- Settles O58: while the register file holds none, no word of it is specified. -/
theorem unspecifiedReadsAreFreshDraws : Obligations.UnspecifiedReadsAreFreshDraws := fun s i =>
  ⟨fun hdigest => hostRead_of_none (by rw [hostRegister_digest, hdigest, Option.map_none]),
    fun hmid => hostRead_of_none (by rw [hostRegister_mid, hmid, Option.map_none])⟩

end Sys2Proof.Machine
end

section
/-! PROOF. The work of a command (spec/70_reset_and_hazards.md R240, spec/43_finalize.md R167): `compressCalls` is the number of whole
blocks that its fold runs over, and a command without a call moves an accumulator that was there. -/

namespace Sys2Proof.Machine

/-- The fold over the complete blocks of a sequence, for a count that is their number. -/
theorem compressAll_eq_foldl_blocks {calls : Nat} {S : List Byte} (h : Words8) (hcalls : calls = S.length / 64) :
    (∀ b ∈ blocks calls S, b.length = 64) ∧ compressAll h S = (blocks calls S).foldl compress h := by
  subst hcalls
  exact ⟨fun b hb => length_of_mem_blocks (Nat.mul_div_le _ _) hb, rfl⟩

/-- R167: one block of `BUF ++ Pad(COUNT)`, or two. -/
theorem compressCalls_final {s : State} (hbuf : s.live.buf.length = s.live.count.toNat % 64) :
    compressCalls .final s = if s.live.count.toNat % 64 ≤ 55 then 1 else 2 := by
  rw [compressCalls, List.length_append, hbuf, fill_add_pad_length]
  split <;> rfl

/-! The accumulator after a command without a call, when it gives a next state. -/

theorem exec_init_accumulator {s t : State} (h : exec .init s = .next t) : t.live.h = iv := by
  obtain ⟨_, _, _, _, rfl | ⟨_, hraises, _⟩⟩ := exec_next h
  · rfl
  · cases hraises

theorem exec_importi_accumulator {s t : State} {w : Word} {ws : List Word} (hc : s.CommandAt w ws)
    (hn : ws.length = 10) (h : exec .importi s = .next t) :
    t.live.h = s.live.h ∨ ∃ L, importiOperands ws = some (L, t.live.h) := by
  obtain ⟨t', ⟨L, words, hoperands, _, rfl⟩, hx⟩ | ⟨_, _, hx⟩ := exec_of_commandAt (i := .importi) hc hn
  all_goals obtain rfl := Host.Outcome.next.inj (h.symm.trans hx)
  · exact .inr ⟨L, hoperands⟩
  · exact .inl rfl

theorem exec_importm_accumulator {s t : State} (h : exec .importm s = .next t) :
    t.live.h = s.live.h ∨ s.mid = some t.live.h := by
  obtain ⟨_, _, _, _, ⟨_, _, _, hmid, _, rfl⟩ | ⟨_, _, rfl⟩⟩ := exec_next h
  · exact .inr hmid
  · exact .inl rfl

theorem exec_restore_accumulator {s t : State} {slot : BitVec 8} (h : exec (.restore slot) s = .next t) :
    t.live.h = s.live.h ∨ ∃ (j : Fin 4) (st : Hasher), s.slots[j] = some st ∧ t.live.h = st.h := by
  obtain ⟨_, _, _, _, ⟨j, st, _, hfull, rfl⟩ | ⟨_, _, rfl⟩⟩ := exec_next h
  · exact .inr ⟨j, st, hfull, rfl⟩
  · exact .inl rfl

/-- Settles O59: the counts are those of the blocks that the commands' folds run over, and the other commands leave an accumulator
that was there. -/
theorem compressCallCounts : Obligations.CompressCallCounts := by
  intro s len slot hbuf fill compressed
  have hone := compressCalls_final hbuf
  have hzero : ∀ i ∈ [Instr.init, .importi, .importm, .save slot, .restore slot], compressCalls i s = 0 := by
    simp [compressCalls]
  refine ⟨hzero, by rw [compressCalls, hbuf], by rw [compressCalls, hbuf], rfl, fun hf => hone.trans (if_pos hf),
    fun hf => hone.trans (if_neg (by omega)), fun w ws hc hn => ?data,
    fun w hc => ⟨_, _, exec_final hc, rfl, compressAll_eq_foldl_blocks _ rfl⟩,
    fun t h => ⟨exec_init_accumulator h, exec_digest_eq h nofun⟩,
    fun t w ws hc hn h => ⟨exec_importi_accumulator hc hn h, exec_digest_eq h nofun⟩,
    fun t h => ⟨exec_importm_accumulator h, exec_digest_eq h nofun⟩,
    fun t h => ⟨congrArg Hasher.h (exec_live_eq h (.inr ⟨slot, rfl⟩)), exec_digest_eq h nofun⟩,
    fun t h => ⟨exec_restore_accumulator h, exec_digest_eq h nofun⟩⟩
  case data =>
    have hdata := inlineData_length_of_dataWords hn
    have hcalls : (s.live.buf.length + len.toNat) / 64 = (s.live.buf ++ inlineData len.toNat ws).length / 64 := by
      rw [List.length_append, hdata]
    constructor
    case left =>
      intro hle i hi
      simp only [List.mem_cons, List.not_mem_nil, or_false] at hi
      rcases hi with rfl | rfl
      · exact ⟨_, exec_absorb_of_le hc hn hle, compressAll_eq_foldl_blocks _ hcalls⟩
      · exact ⟨_, exec_absorbx_of_le hc hn hle, compressAll_eq_foldl_blocks _ hcalls⟩
    case right =>
      exact ⟨_, exec_of_completed (i := .prime len) hc hn rfl,
        compressAll_eq_foldl_blocks iv (congrArg (· / 64) hdata.symm)⟩

end Sys2Proof.Machine
end
